-- ==== Sys2Proof/Word.lean ====
section
/-!
DEFINITION. The word types of the SFC. Every value of the spec is an unsigned integer of a stated width
(00_scope.md R8); widths follow 10_state.md R12 and 20_memory.md R56.
-/

namespace Sys2Proof

/-- A frame byte: the unit of FBUF and of the stream (20_memory.md R56). -/
abbrev Byte := BitVec 8

/-- A two-byte frame field (20_memory.md R56). -/
abbrev Half := BitVec 16

/-- A host transaction's data, and a command word (20_memory.md R56, 30_encoding.md R68). -/
abbrev Word := BitVec 32

/-- A register index, 0x00 to 0x3F (20_memory.md R42). -/
abbrev RegIndex := BitVec 6

end Sys2Proof
end

