-- ==== Sys2Proof/Config.lean ====
section
/-!
DEFINITION. The parameters of 00_scope.md R7, at the values the source gives them, and the model's one free value.
The source's literals are unaudited against device firmware (93_implementation_defined.md I7; log 9).
-/

namespace Sys2Proof.Config

/-- FRAME_LEN (R7): every frame is 26 bytes. -/
def frameLen : Nat := 26

/-- The offset of the checksum byte, the last of the frame (30_encoding.md R74). -/
def checksumOffset : Nat := 25

/-- START (R7): byte 0 of every frame. -/
def startByte : Byte := 0xAA

/-- CMD_SET (R7): byte 2 of a Set frame. -/
def cmdSet : Byte := 0x90

/-- CMD_GET (R7): byte 2 of a Get request and of a Get response. -/
def cmdGet : Byte := 0x91

/-- CMD_STATE (R7): byte 2 of a State frame. -/
def cmdState : Byte := 0x92

/-- ADDR_MAX (R7): the largest valid address. -/
def addrMax : Byte := 0xFE

/-- KIND value of a current setpoint (R7). -/
def kindCurrent : Byte := 1

/-- KIND value of a power setpoint (R7). -/
def kindPower : Byte := 2

/-- KIND value of a resistance setpoint (R7). -/
def kindResistance : Byte := 3

/-- FREE VALUE (log 6). EXP_CMD at a LAST_OP that is no decoder: 10_state.md R18 says it "is defined only while
PHASE = RX, and then LAST_OP is one of these three values". No body: nothing can be proved of the value. -/
opaque expectedCommandElse : Byte → Byte

end Sys2Proof.Config
end

