-- ==== Sys2Proof/Syntax.lean ====
section
/-!
DEFINITION. The syntax of the SFC: its nine commands (one constructor for each row of spec/opcode_table.json), the
registers of the register map, the host's transactions, and the lines of a host program.
-/

namespace Sys2Proof

/-- The commands of 30_encoding.md R70. DATA is an operand of CSUM.ADD alone (R69); the bits that R68 and R69 say are
ignored are no operands. -/
inductive Instr where
  /-- CSUM.CLR (40_checksum.md R91). -/
  | csumClr
  /-- CSUM.ADD (40_checksum.md R92); `imm8` is DATA. -/
  | csumAdd (imm8 : Byte)
  /-- ENC.SET (41_encode.md R99). -/
  | encSet
  /-- ENC.GETREQ (41_encode.md R100). -/
  | encGetReq
  /-- ENC.STATE (41_encode.md R101). -/
  | encState
  /-- ENC.GETRESP (41_encode.md R102). -/
  | encGetResp
  /-- DEC.SET (42_decode.md R111). -/
  | decSet
  /-- DEC.GET (42_decode.md R110). -/
  | decGet
  /-- DEC.STATE (42_decode.md R112). -/
  | decState
deriving DecidableEq, Repr

/-- The named registers of the register map (20_memory.md R43), in index order 0x00 to 0x25. -/
inductive Reg where
  | ctrl | cmd | status | errf | acc
  | fAddr | fNewAddr | fKind | fValue | fMaxI | fMaxP | fState
  | fCurrent | fVoltage | fPower | fRes | fGStatus
  | fbuf0 | fbuf1 | fbuf2 | fbuf3 | fbuf4 | fbuf5 | fbuf6
  | dHdr | dgCurrent | dgVoltage | dgPower | dgMaxI | dgMaxP | dgRes | dgFlags
  | dsMaxI | dsMaxP | dsNewAddr | dsKind | dsValue | dtState
deriving DecidableEq, Repr

/-- What the host does at one of its turns (20_memory.md R52, R53; 30_encoding.md R84). -/
inductive HostOp where
  /-- HRD(idx). -/
  | rd (idx : RegIndex)
  /-- HWR(idx, v). -/
  | wr (idx : RegIndex) (v : Word)
  /-- The polling loop `wait`: one read of STATUS at each of the host's turns until BUSY reads 0. -/
  | wait
deriving DecidableEq, Repr

/-- A line of a host program (30_encoding.md R83 to R87). Immediates are numerals, so their ranges are for
`Line.WellFormed` to check. -/
inductive Line where
  /-- `rd NAME` -/
  | rd (r : Reg)
  /-- `wr NAME, imm` -/
  | wr (r : Reg) (imm : Nat)
  /-- `cmd MNEM`, and `cmd CSUM.ADD, imm8` -/
  | cmd (i : Instr)
  /-- `srst` -/
  | srst
  /-- `; text` -/
  | comment (text : String)
  /-- `wait` (R84) -/
  | wait
  /-- `csum b0, ..., bn` (R85) -/
  | csum (bytes : List Nat)
  /-- `query` (R86) -/
  | query
  /-- `setq kind, value` (R87) -/
  | setq (kind value : Nat)
  /-- `setstate remote, enabled` (R87) -/
  | setstate (remote enabled : Bool)
deriving DecidableEq, Repr

end Sys2Proof
end

