-- ==== Sys2Proof/Machine/State.lean ====
section
/-!
DEFINITION. The state of the SFC (10_state.md R12) with the agents around it held as data (log 1), the reasons a step can
stop, and the state after reset (10_state.md R41).
-/

namespace Sys2Proof.Machine

/-- PHASE, the core's sequencer state (10_state.md R15). -/
inductive Phase where
  /-- No command is in progress. -/
  | idle
  /-- An encoder is offering FBUF bytes to the TX sink. -/
  | tx
  /-- A decoder is taking bytes from the RX source. -/
  | rx
deriving DecidableEq, Repr

/-- The TX sink's answers (20_memory.md R60). -/
inductive TxAnswer where
  | take
  | fail
deriving DecidableEq, Repr

/-- The RX source's answers (20_memory.md R61). -/
inductive RxAnswer where
  | deliver (b : Byte)
  | timeout
deriving DecidableEq, Repr

/-- Who makes a step (00_scope.md R6; the reset input is 20_memory.md R58's fourth port). The core has no step of its own. -/
inductive Agent where
  | host
  | txSink
  | rxSource
  | resetInput
deriving DecidableEq, Repr

/-- The errors of 60_exceptions.md R115, codes 1 to 9; "no error" is code 0 and none of these. -/
inductive ErrorCause where
  /-- 1: an accepted command with an unlisted OPC. -/
  | illegalOp
  /-- 2: an encoder with F_ADDR = 0xFF, or ENC.SET with F_NEWADDR = 0xFF. -/
  | invalidAddress
  /-- 3: ENC.SET with F_KIND outside 1 to 3. -/
  | invalidKind
  /-- 4: FAIL from the TX sink. -/
  | streamWriteFailure
  /-- 5: TIMEOUT with no byte received. -/
  | streamTimeout
  /-- 6: TIMEOUT after 1 to 25 bytes. -/
  | shortRead
  /-- 7: byte 0 is not 0xAA. -/
  | badStartByte
  /-- 8: byte 2 is not the expected command byte. -/
  | badCommandByte
  /-- 9: byte 25 is not the computed checksum. -/
  | checksumMismatch
deriving DecidableEq, Repr

/-- The frame buffer as (offset, byte) cells in one canonical form (`Memory.wf` in Ops.lean; log 4). -/
abbrev Memory := List Host.Cell

/-- Why a step stops the machine. The SFC itself has no traps (60_exceptions.md R119). -/
inductive Fault where
  /-- Raised by a TAKE or a DELIVER with CNT past 25: FBUF has no such offset (00_scope.md R9, 20_memory.md R42).
  Safe: the machine stops, and no state that a run reaches does so (log 5). -/
  | noSuchOffset (cnt : BitVec 5)
deriving DecidableEq, Repr

/-- Why a step is refused. -/
inductive Refusal where
  /-- Raised by `exec` for a command without a meaning; every command has one, so nothing raises it. Safe. -/
  | notModelled (mnemonic : String)
deriving DecidableEq, Repr

/-- The state. The fields up to `fGStatus` are the record of 10_state.md R12, which "has no other architectural state".
The last six are the MODEL's own: the other agents (log 1) and the observation of 00_scope.md R11. -/
structure State where
  /-- PHASE (R15). -/
  phase : Phase
  /-- LAST_OP (R17). -/
  lastOp : Byte
  /-- CNT (R19). -/
  cnt : BitVec 5
  /-- ACC (R20). -/
  acc : Byte
  /-- FBUF[0..25] (R21). -/
  fbuf : Memory
  /-- DONE (R22). -/
  done : Bool
  /-- DVALID (R23). -/
  dvalid : Bool
  /-- OVR (R24). -/
  ovr : Bool
  /-- ERR (R25). -/
  err : BitVec 4
  /-- ERRF (R26). -/
  errf : BitVec 9
  /-- F_ADDR (R27). -/
  fAddr : Byte
  /-- F_NEWADDR (R28). -/
  fNewAddr : Byte
  /-- F_KIND (R29). -/
  fKind : Byte
  /-- F_VALUE (R30). -/
  fValue : Half
  /-- F_MAXI (R31). -/
  fMaxI : Half
  /-- F_MAXP (R32). -/
  fMaxP : Half
  /-- F_STATE (R33). -/
  fState : BitVec 2
  /-- F_CURRENT (R34). -/
  fCurrent : Half
  /-- F_VOLTAGE (R35). -/
  fVoltage : Word
  /-- F_POWER (R36). -/
  fPower : Half
  /-- F_RES (R37). -/
  fRes : Half
  /-- F_GSTATUS (R38). -/
  fGStatus : BitVec 6
  /-- The host's transactions still to come, in program order (20_memory.md R64). -/
  host : List HostOp
  /-- The TX sink's answers still to come (20_memory.md R60). -/
  sink : List TxAnswer
  /-- The RX source's answers still to come (20_memory.md R61). -/
  source : List RxAnswer
  /-- Who moves at each step still to come (20_memory.md R64). -/
  turns : List Agent
  /-- The TX trace: the bytes the sink took, in order (00_scope.md R11). -/
  txTrace : List Byte
  /-- The values the host's register reads returned, in order (00_scope.md R11). -/
  readLog : List Word
deriving DecidableEq, Repr

/-- The machine right after reset (10_state.md R41). FBUF lists no cell: every byte reads 0x00. The model's own fields
are empty: no agent has moved, and none has a step to come (log 3). -/
def State.reset : State where
  phase := .idle
  lastOp := 0x00
  cnt := 0
  acc := 0x00
  fbuf := []
  done := false
  dvalid := false
  ovr := false
  err := 0
  errf := 0
  fAddr := 0
  fNewAddr := 0
  fKind := 0
  fValue := 0
  fMaxI := 0
  fMaxP := 0
  fState := 0
  fCurrent := 0
  fVoltage := 0
  fPower := 0
  fRes := 0
  fGStatus := 0
  host := []
  sink := []
  source := []
  turns := []
  txTrace := []
  readLog := []

end Sys2Proof.Machine
end

