-- ==== Sys2Proof/Machine/Ops.lean ====
section
/-!
DEFINITION. The named operations over the frame buffer and over the sequencer: MemRead and MemWrite (00_scope.md R9),
the accumulator step (40_checksum.md R89), command acceptance (30_encoding.md R71, R72), raising an error and completing
a command (60_exceptions.md R117, R118; the SFC's form of an exception, which is no trap: R119), and reset
(70_reset_and_hazards.md R129).
-/

namespace Sys2Proof.Machine

/-- FBUF[a]. An unlisted offset reads 0x00, the reset contents (10_state.md R41; log 4). -/
def byteAt : Memory → Nat → Byte
  | [], _ => 0
  | (k, b) :: m, a => if k = a then b else byteAt m a

/-- `m` without the cell of offset `a`. -/
def eraseByte (m : Memory) (a : Nat) : Memory := m.filter (fun c => c.1 != a)

/-- `m` with the cell `(a, b)` before its first higher offset. -/
def insertByte (a : Nat) (b : Byte) : Memory → Memory
  | [] => [(a, b)]
  | (k, c) :: m => if a < k then (a, b) :: (k, c) :: m else (k, c) :: insertByte a b m

/-- FBUF[a] <- b. Writing 0x00, what an unlisted offset reads as, removes the cell. -/
def setByte (m : Memory) (a : Nat) (b : Byte) : Memory :=
  if b = 0 then eraseByte m a else insertByte a b (eraseByte m a)

/-- The canonical form of FBUF (log 4): offsets strictly rising, none past 25 (20_memory.md R42), and no cell that holds
0x00. -/
def Memory.wf (m : Memory) : Bool :=
  decide (m.Pairwise (fun c d => c.1 < d.1)) && m.all (fun c => c.2 != 0 && decide (c.1 < Config.frameLen))

/-- MemRead(a, n): the little-endian unsigned number at offsets a to a + n - 1 (00_scope.md R9). -/
def memRead (m : Memory) (a : Nat) : Nat → Nat
  | 0 => 0
  | n + 1 => (byteAt m a).toNat + 256 * memRead m (a + 1) n

/-- MemWrite(a, n, v): FBUF[a + i] <- (v >> 8 * i) & 0xFF for i in 0..n-1 (00_scope.md R9). -/
def memWrite (m : Memory) (a n v : Nat) : Memory :=
  match n with
  | 0 => m
  | n + 1 => memWrite (setByte m a (BitVec.ofNat 8 v)) (a + 1) n (v / 256)

/-- `for i in a..a+n-1: MemWrite(i, 1, 0x00)`, the padding of 41_encode.md R99 to R102. -/
def zeroFill (m : Memory) (a n : Nat) : Memory :=
  match n with
  | 0 => m
  | n + 1 => zeroFill (setByte m a 0) (a + 1) n

/-- acc_step (40_checksum.md R89): (zext_9(ACC) + zext_9(b))[7:0]. -/
def accStep (acc b : Byte) : Byte := (acc.zeroExtend 9 + b.zeroExtend 9).extractLsb' 0 8

/-- BUSY (10_state.md R16). -/
def State.busy (s : State) : Bool := decide (s.phase ≠ .idle)

/-- The opcodes of the decoders (60_exceptions.md R118). -/
def isDecoderOp (opc : Byte) : Bool := opc == 0x20 || opc == 0x21 || opc == 0x22

/-- EXP_CMD (10_state.md R18). Elsewhere it is not defined: a free value (log 6). -/
def expectedCommand (lastOp : Byte) : Byte :=
  if lastOp = 0x20 then Config.cmdSet
  else if lastOp = 0x21 then Config.cmdGet
  else if lastOp = 0x22 then Config.cmdState
  else Config.expectedCommandElse lastOp

/-- The common acceptance actions (30_encoding.md R71). OVR is not changed. -/
def State.accept (s : State) (opc : Byte) : State :=
  { s with lastOp := opc, done := false, dvalid := false, err := 0, errf := 0 }

/-- A CMD write while BUSY = 1: the command is dropped and OVR set (30_encoding.md R72). -/
def State.dropCommand (s : State) : State := { s with ovr := true }

/-- The code of an error (60_exceptions.md R115). -/
def errorCode : ErrorCause → BitVec 4
  | .illegalOp => 1
  | .invalidAddress => 2
  | .invalidKind => 3
  | .streamWriteFailure => 4
  | .streamTimeout => 5
  | .shortRead => 6
  | .badStartByte => 7
  | .badCommandByte => 8
  | .checksumMismatch => 9

/-- The flag of an error: bit n - 1 of ERRF for code n (60_exceptions.md R115; 20_memory.md R47). -/
def errorFlag (e : ErrorCause) : BitVec 9 := 1#9 <<< ((errorCode e).toNat - 1)

/-- `raise E` (00_scope.md R10): sets the flag of E. -/
def State.raise (s : State) (e : ErrorCause) : State := { s with errf := s.errf ||| errorFlag e }

/-- complete(code) (60_exceptions.md R118): the end of a command, with or without an error. -/
def State.complete (s : State) (code : BitVec 4) : State :=
  { s with err := code, done := true, phase := .idle, dvalid := code == 0 && isDecoderOp s.lastOp }

/-- reset() (70_reset_and_hazards.md R129): every element of R12 at its value of R41. The other agents and what has been
observed of the run are not the SFC's to reset ("The bytes an encoder's sink has already taken stay in the TX trace"). -/
def State.resetSfc (s : State) : State :=
  { State.reset with
      host := s.host, sink := s.sink, source := s.source, turns := s.turns
      txTrace := s.txTrace, readLog := s.readLog }

/-- A command of opcode `opc` presented to the SFC by a write of CMD: accepted when BUSY = 0, and then `body` is what
the opcode does after the common acceptance actions (30_encoding.md R71); dropped when BUSY = 1 (R72). -/
def present (opc : Byte) (body : State → State) (s : State) : Host.Outcome State Fault Refusal :=
  .next (if s.busy then s.dropCommand else body (s.accept opc))

end Sys2Proof.Machine
end

