-- ==== Sys2Proof/Machine/Flags.lean ====
section
/-!
DEFINITION. The priority of the error flags (60_exceptions.md R117), and the STATUS word
(20_memory.md R46).
-/

namespace Sys2Proof.Machine

/-- The lowest code n from `n` on, of `fuel` codes, whose flag, bit n - 1, is set; 0 where none is. -/
def lowestFlag (f : BitVec 9) (n : Nat) : Nat → Nat
  | 0 => 0
  | fuel + 1 => if f.getLsbD (n - 1) then n else lowestFlag f (n + 1) fuel

/-- priority(f): the lowest code in 1..9 whose flag is set, 0 where none is (60_exceptions.md R117). -/
def priority (f : BitVec 9) : BitVec 4 := BitVec.ofNat 4 (lowestFlag f 1 9)

/-- The STATUS register (20_memory.md R46). -/
def statusWord (s : State) : Word :=
  0#8 ++ s.lastOp ++ 0#3 ++ s.cnt ++ s.err ++ BitVec.ofBool s.ovr ++ BitVec.ofBool s.dvalid ++ BitVec.ofBool s.done
    ++ BitVec.ofBool s.busy

end Sys2Proof.Machine
end

