-- ==== Sys2Proof/Machine/Checksum.lean ====
section
/-!
DEFINITION. The checksum family: CSUM.CLR and CSUM.ADD (40_checksum.md R91, R92).
-/

namespace Sys2Proof.Machine

/-- CSUM.CLR (40_checksum.md R91). -/
def execCsumClr (s : State) : Host.Outcome State Fault Refusal :=
  present 0x01 (fun s => { s with acc := 0x00 }.complete 0) s

/-- CSUM.ADD (40_checksum.md R92). -/
def execCsumAdd (imm8 : Byte) (s : State) : Host.Outcome State Fault Refusal :=
  present 0x02 (fun s => { s with acc := accStep s.acc imm8 }.complete 0) s

end Sys2Proof.Machine
end

