-- ==== Sys2Proof/WellFormed.lean ====
section
/-!
DEFINITION. Which commands and which host lines are well formed.
-/

namespace Sys2Proof

/-- Every command is well formed: DATA is an 8-bit field, every value of it is legal (30_encoding.md R69; 40_checksum.md
R92), and no other command has an operand. -/
def Instr.WellFormed : Instr → Bool
  | .csumClr => true
  | .csumAdd _ => true
  | .encSet => true
  | .encGetReq => true
  | .encState => true
  | .encGetResp => true
  | .decSet => true
  | .decGet => true
  | .decState => true

/-- The ranges of a line's immediates: a host write moves 32 bits (20_memory.md R56), a byte of `csum` goes into the
8-bit DATA field (30_encoding.md R69, R85), and `csum` names at least one byte. -/
def Line.WellFormed : Line → Bool
  | .rd _ => true
  | .wr _ imm => decide (imm < 2 ^ 32)
  | .cmd i => i.WellFormed
  | .srst => true
  | .comment _ => true
  | .wait => true
  | .csum bytes => !bytes.isEmpty && bytes.all (fun b => decide (b < 256))
  | .query => true
  | .setq kind value => decide (kind < 2 ^ 32) && decide (value < 2 ^ 32)
  | .setstate _ _ => true

end Sys2Proof
end

