-- ==== Sys2Proof/Decode.lean ====
section
/-!
DEFINITION. The command decoder and encoder (30_encoding.md R67 to R73), the register index map (20_memory.md R43), and
the assembler of host lines (30_encoding.md R83 to R87).
-/

namespace Sys2Proof

/-- What the decoder makes of a command word. -/
inductive Decoded where
  /-- A command of the opcode map. -/
  | instr (i : Instr)
  /-- An OPC value the opcode map does not list: ILLEGAL_OP (30_encoding.md R73). -/
  | illegalOp (opc : Byte)
deriving DecidableEq, Repr

/-- OPC, bits 7:0 (30_encoding.md R68). -/
def opcField (v : Word) : Byte := v.extractLsb' 0 8

/-- DATA, bits 15:8 (30_encoding.md R68, R69). -/
def dataField (v : Word) : Byte := v.extractLsb' 8 8

/-- The opcode map (30_encoding.md R70); every unlisted OPC is illegal (R73). Bits 31:16 are read by nothing. -/
def decode (v : Word) : Decoded :=
  match opcField v with
  | 0x01#8 => .instr .csumClr
  | 0x02#8 => .instr (.csumAdd (dataField v))
  | 0x10#8 => .instr .encSet
  | 0x11#8 => .instr .encGetReq
  | 0x12#8 => .instr .encState
  | 0x13#8 => .instr .encGetResp
  | 0x20#8 => .instr .decSet
  | 0x21#8 => .instr .decGet
  | 0x22#8 => .instr .decState
  | opc => .illegalOp opc

/-- The OPC of a command (30_encoding.md R70). -/
def opcodeOf : Instr → Byte
  | .csumClr => 0x01
  | .csumAdd _ => 0x02
  | .encSet => 0x10
  | .encGetReq => 0x11
  | .encState => 0x12
  | .encGetResp => 0x13
  | .decSet => 0x20
  | .decGet => 0x21
  | .decState => 0x22

/-- The DATA a command carries: CSUM.ADD's byte; zero where R69 says DATA is ignored (log 7). -/
def dataOf : Instr → Byte
  | .csumClr => 0
  | .csumAdd imm8 => imm8
  | .encSet => 0
  | .encGetReq => 0
  | .encState => 0
  | .encGetResp => 0
  | .decSet => 0
  | .decGet => 0
  | .decState => 0

/-- The command word of bits 31:16, DATA and OPC (30_encoding.md R68). -/
def commandWord (ignored : Half) (data opc : Byte) : Word := ignored ++ data ++ opc

/-- The word `cmd MNEM` writes to CMD (30_encoding.md R83); bits 31:16 are zero. -/
def encode (i : Instr) : Word := commandWord 0 (dataOf i) (opcodeOf i)

/-- The decoder on a row of spec/opcode_table.json: `w`'s low `nbits` bits, the rest of the 32-bit word zero. -/
def decodeTableWord (nbits w : Nat) : Option Instr :=
  match decode (BitVec.ofNat 32 (w % 2 ^ nbits)) with
  | .instr i => some i
  | .illegalOp _ => none

/-- The index of a register (20_memory.md R43). -/
def regIndex : Reg → RegIndex
  | .ctrl => 0x00 | .cmd => 0x01 | .status => 0x02 | .errf => 0x03 | .acc => 0x04
  | .fAddr => 0x05 | .fNewAddr => 0x06 | .fKind => 0x07 | .fValue => 0x08 | .fMaxI => 0x09 | .fMaxP => 0x0A
  | .fState => 0x0B | .fCurrent => 0x0C | .fVoltage => 0x0D | .fPower => 0x0E | .fRes => 0x0F | .fGStatus => 0x10
  | .fbuf0 => 0x11 | .fbuf1 => 0x12 | .fbuf2 => 0x13 | .fbuf3 => 0x14 | .fbuf4 => 0x15 | .fbuf5 => 0x16
  | .fbuf6 => 0x17
  | .dHdr => 0x18 | .dgCurrent => 0x19 | .dgVoltage => 0x1A | .dgPower => 0x1B | .dgMaxI => 0x1C | .dgMaxP => 0x1D
  | .dgRes => 0x1E | .dgFlags => 0x1F
  | .dsMaxI => 0x20 | .dsMaxP => 0x21 | .dsNewAddr => 0x22 | .dsKind => 0x23 | .dsValue => 0x24 | .dtState => 0x25

/-- The named registers, in index order (20_memory.md R43). -/
def namedRegs : List Reg :=
  [.ctrl, .cmd, .status, .errf, .acc,
   .fAddr, .fNewAddr, .fKind, .fValue, .fMaxI, .fMaxP, .fState, .fCurrent, .fVoltage, .fPower, .fRes, .fGStatus]
  ++ [.fbuf0, .fbuf1, .fbuf2, .fbuf3, .fbuf4, .fbuf5, .fbuf6]
  ++ [.dHdr, .dgCurrent, .dgVoltage, .dgPower, .dgMaxI, .dgMaxP, .dgRes, .dgFlags,
      .dsMaxI, .dsMaxP, .dsNewAddr, .dsKind, .dsValue, .dtState]

/-- The register at an index; none at the reserved indexes 0x26 to 0x3F (20_memory.md R51). -/
def regAt (idx : RegIndex) : Option Reg := namedRegs[idx.toNat]?

/-- `wr NAME, imm` as a host transaction (30_encoding.md R83). -/
def writeLine (r : Reg) (imm : Nat) : HostOp := .wr (regIndex r) (BitVec.ofNat 32 imm)

/-- `cmd MNEM` as a host transaction (30_encoding.md R83). -/
def commandLine (i : Instr) : HostOp := .wr (regIndex .cmd) (encode i)

/-- The host transactions a line stands for (30_encoding.md R83 to R87). -/
def assembleLine : Line → List HostOp
  | .rd r => [.rd (regIndex r)]
  | .wr r imm => [writeLine r imm]
  | .cmd i => [commandLine i]
  | .srst => [writeLine .ctrl 1]
  | .comment _ => []
  | .wait => [.wait]
  | .csum bytes => commandLine .csumClr :: bytes.map (fun b => commandLine (.csumAdd (BitVec.ofNat 8 b)))
  | .query => [commandLine .encGetReq, .wait, commandLine .decGet, .wait]
  | .setq kind value => [writeLine .fKind kind, writeLine .fValue value, commandLine .encSet, .wait]
  | .setstate remote enabled =>
      [writeLine .fState ((remote.toNat <<< 1) ||| enabled.toNat), commandLine .encState, .wait]

/-- A host program as host transactions, in program order. -/
def assemble (p : List Line) : List HostOp := p.flatMap assembleLine

end Sys2Proof
end

