-- ==== Sys2Proof/Machine/Operands.lean ====
section
/-!
DEFINITION. The operands of the commands: the registers as the host writes and reads them (20_memory.md R43 to R53,
42_decode.md R108), the encoders' operand checks (41_encode.md R94), and the frames they pack (41_encode.md R99 to R102).
-/

namespace Sys2Proof.Machine

/-- A host write of a field register, `R[field(idx)] <- v & MASK(idx)` (20_memory.md R49); a write of a read-only
register has no effect (R43). CTRL and CMD are not written here (Registers.lean). -/
def writeField (r : Reg) (v : Word) (s : State) : State :=
  match r with
  | .fAddr => { s with fAddr := v.setWidth 8 }
  | .fNewAddr => { s with fNewAddr := v.setWidth 8 }
  | .fKind => { s with fKind := v.setWidth 8 }
  | .fValue => { s with fValue := v.setWidth 16 }
  | .fMaxI => { s with fMaxI := v.setWidth 16 }
  | .fMaxP => { s with fMaxP := v.setWidth 16 }
  | .fState => { s with fState := v.setWidth 2 }
  | .fCurrent => { s with fCurrent := v.setWidth 16 }
  | .fVoltage => { s with fVoltage := v }
  | .fPower => { s with fPower := v.setWidth 16 }
  | .fRes => { s with fRes := v.setWidth 16 }
  | .fGStatus => { s with fGStatus := v.setWidth 6 }
  | .ctrl | .cmd | .status | .errf | .acc => s
  | .fbuf0 | .fbuf1 | .fbuf2 | .fbuf3 | .fbuf4 | .fbuf5 | .fbuf6 => s
  | .dHdr | .dgCurrent | .dgVoltage | .dgPower | .dgMaxI | .dgMaxP | .dgRes | .dgFlags => s
  | .dsMaxI | .dsMaxP | .dsNewAddr | .dsKind | .dsValue | .dtState => s

/-- MemRead(a, n) zero-extended to a register's 32 bits. -/
def fbufField (m : Memory) (a n : Nat) : Word := BitVec.ofNat 32 (memRead m a n)

/-- The value a host read returns for a named register: write-only registers read 0 (20_memory.md R44, R45), STATUS is
R46, ERRF R47, ACC R48, the fields R49, the FBUF registers R50, the views 42_decode.md R108. -/
def readReg (r : Reg) (s : State) : Word :=
  match r with
  | .ctrl => 0
  | .cmd => 0
  | .status => statusWord s
  | .errf => s.errf.setWidth 32
  | .acc => s.acc.setWidth 32
  | .fAddr => s.fAddr.setWidth 32
  | .fNewAddr => s.fNewAddr.setWidth 32
  | .fKind => s.fKind.setWidth 32
  | .fValue => s.fValue.setWidth 32
  | .fMaxI => s.fMaxI.setWidth 32
  | .fMaxP => s.fMaxP.setWidth 32
  | .fState => s.fState.setWidth 32
  | .fCurrent => s.fCurrent.setWidth 32
  | .fVoltage => s.fVoltage
  | .fPower => s.fPower.setWidth 32
  | .fRes => s.fRes.setWidth 32
  | .fGStatus => s.fGStatus.setWidth 32
  | .fbuf0 => fbufField s.fbuf 0 4
  | .fbuf1 => fbufField s.fbuf 4 4
  | .fbuf2 => fbufField s.fbuf 8 4
  | .fbuf3 => fbufField s.fbuf 12 4
  | .fbuf4 => fbufField s.fbuf 16 4
  | .fbuf5 => fbufField s.fbuf 20 4
  | .fbuf6 => fbufField s.fbuf 24 2
  | .dHdr => byteAt s.fbuf 25 ++ byteAt s.fbuf 2 ++ byteAt s.fbuf 1 ++ byteAt s.fbuf 0
  | .dgCurrent => fbufField s.fbuf 3 2
  | .dgVoltage => fbufField s.fbuf 5 4
  | .dgPower => fbufField s.fbuf 9 2
  | .dgMaxI => fbufField s.fbuf 11 2
  | .dgMaxP => fbufField s.fbuf 13 2
  | .dgRes => fbufField s.fbuf 15 2
  | .dgFlags => ((byteAt s.fbuf 17).extractLsb' 0 6).setWidth 32
  | .dsMaxI => fbufField s.fbuf 3 2
  | .dsMaxP => fbufField s.fbuf 5 2
  | .dsNewAddr => fbufField s.fbuf 7 1
  | .dsKind => fbufField s.fbuf 8 1
  | .dsValue => fbufField s.fbuf 9 2
  | .dtState => ((byteAt s.fbuf 3).extractLsb' 0 2).setWidth 32

/-- The value HRD(idx) returns; a reserved index reads 0 (20_memory.md R51, R52). -/
def readIndex (idx : RegIndex) (s : State) : Word :=
  match regAt idx with
  | some r => readReg r s
  | none => 0

/-- The check of F_ADDR that every encoder makes (41_encode.md R94). -/
def checkAddress (s : State) : State := if s.fAddr = 0xFF then s.raise .invalidAddress else s

/-- The check of F_NEWADDR that ENC.SET adds (41_encode.md R94). -/
def checkNewAddress (s : State) : State := if s.fNewAddr = 0xFF then s.raise .invalidAddress else s

/-- The check of F_KIND that ENC.SET adds (41_encode.md R94). -/
def checkKind (s : State) : State :=
  if s.fKind = Config.kindCurrent ∨ s.fKind = Config.kindPower ∨ s.fKind = Config.kindResistance then s
  else s.raise .invalidKind

/-- enc_validate (41_encode.md R94): ENC.SET, opcode 0x10, checks three operands and the other encoders F_ADDR alone. -/
def encValidate (opc : Byte) (s : State) : State :=
  if opc = 0x10 then checkKind (checkNewAddress (checkAddress s)) else checkAddress s

/-- The common first bytes of a frame: start, address, command byte (30_encoding.md R74). -/
def packHeader (command : Byte) (s : State) : Memory :=
  let m := memWrite s.fbuf 0 1 Config.startByte.toNat
  let m := memWrite m 1 1 s.fAddr.toNat
  memWrite m 2 1 command.toNat

/-- pack(0x10), the Set frame (41_encode.md R99; 30_encoding.md R75). -/
def packSet (s : State) : Memory :=
  let m := packHeader Config.cmdSet s
  let m := memWrite m 3 2 s.fMaxI.toNat
  let m := memWrite m 5 2 s.fMaxP.toNat
  let m := memWrite m 7 1 s.fNewAddr.toNat
  let m := memWrite m 8 1 s.fKind.toNat
  let m := memWrite m 9 2 s.fValue.toNat
  zeroFill m 11 14

/-- pack(0x11), the Get request (41_encode.md R100; 30_encoding.md R76). -/
def packGetReq (s : State) : Memory := zeroFill (packHeader Config.cmdGet s) 3 22

/-- pack(0x12), the State frame (41_encode.md R101; 30_encoding.md R78): bit 0 enabled, bit 1 remote, as F_STATE has them. -/
def packState (s : State) : Memory :=
  let m := packHeader Config.cmdState s
  let m := memWrite m 3 1 s.fState.toNat
  zeroFill m 4 21

/-- pack(0x13), the Get response (41_encode.md R102; 30_encoding.md R77). -/
def packGetResp (s : State) : Memory :=
  let m := packHeader Config.cmdGet s
  let m := memWrite m 3 2 s.fCurrent.toNat
  let m := memWrite m 5 4 s.fVoltage.toNat
  let m := memWrite m 9 2 s.fPower.toNat
  let m := memWrite m 11 2 s.fMaxI.toNat
  let m := memWrite m 13 2 s.fMaxP.toNat
  let m := memWrite m 15 2 s.fRes.toNat
  let m := memWrite m 17 1 s.fGStatus.toNat
  zeroFill m 18 7

end Sys2Proof.Machine
end

