-- ==== Sys2Proof/Machine/Decoder.lean ====
section
/-!
DEFINITION. The decoder family: DEC.SET, DEC.GET, DEC.STATE (42_decode.md R103 to R112), and the RX answers that carry a
decoder on (R104 to R106).
-/

namespace Sys2Proof.Machine

/-- dec_accept (42_decode.md R103). -/
def decAccept (s : State) : State :=
  { s with fbuf := zeroFill s.fbuf 0 Config.frameLen, acc := 0x00, cnt := 0, phase := .rx }

/-- DEC.SET (42_decode.md R111). -/
def execDecSet (s : State) : Host.Outcome State Fault Refusal := present 0x20 decAccept s

/-- DEC.GET (42_decode.md R110). -/
def execDecGet (s : State) : Host.Outcome State Fault Refusal := present 0x21 decAccept s

/-- DEC.STATE (42_decode.md R112). -/
def execDecState (s : State) : Host.Outcome State Fault Refusal := present 0x22 decAccept s

/-- The start-byte check of rx_complete (42_decode.md R105). -/
def checkStart (s : State) : State := if byteAt s.fbuf 0 ≠ Config.startByte then s.raise .badStartByte else s

/-- The command-byte check of rx_complete (42_decode.md R105; 10_state.md R18). -/
def checkCommand (s : State) : State :=
  if byteAt s.fbuf 2 ≠ expectedCommand s.lastOp then s.raise .badCommandByte else s

/-- The checksum check of rx_complete (42_decode.md R105). -/
def checkChecksum (s : State) : State :=
  if byteAt s.fbuf Config.checksumOffset ≠ s.acc then s.raise .checksumMismatch else s

/-- rx_complete (42_decode.md R105): all three checks are made every time, each with its own flag (90_conflicts.md C1). -/
def rxComplete (s : State) : State :=
  let s := checkChecksum (checkCommand (checkStart s))
  s.complete (priority s.errf)

/-- rx_deliver(b) (42_decode.md R104). Byte 25 is not summed. CNT past 25 names no offset of FBUF (log 5). -/
def rxDeliver (b : Byte) (s : State) : Host.Outcome State Fault Refusal :=
  if s.cnt.toNat < Config.checksumOffset then
    .next { s with fbuf := setByte s.fbuf s.cnt.toNat b, acc := accStep s.acc b, cnt := s.cnt + 1 }
  else if s.cnt.toNat = Config.checksumOffset then
    .next (rxComplete { s with fbuf := setByte s.fbuf s.cnt.toNat b, cnt := s.cnt + 1 })
  else .fault (.noSuchOffset s.cnt)

/-- rx_timeout (42_decode.md R106): the frame checks are not made. -/
def rxTimeout (s : State) : State :=
  let s := if s.cnt = 0 then s.raise .streamTimeout else s.raise .shortRead
  s.complete (priority s.errf)

end Sys2Proof.Machine
end

