-- ==== Sys2Proof/Machine/Encoder.lean ====
section
/-!
DEFINITION. The encoder family: ENC.SET, ENC.GETREQ, ENC.STATE, ENC.GETRESP (41_encode.md R94 to R102), and the TX
answers that carry an encoder on (R96, R97).
-/

namespace Sys2Proof.Machine

/-- enc_accept (41_encode.md R95): a failed check completes at once and sends nothing; else the whole frame but its
checksum is packed in this step and PHASE becomes TX. -/
def encAccept (opc : Byte) (pack : State → Memory) (s : State) : State :=
  let s := encValidate opc s
  if s.errf ≠ 0 then s.complete (priority s.errf)
  else { s with fbuf := setByte (pack s) Config.checksumOffset 0x00, acc := 0x00, cnt := 0, phase := .tx }

/-- ENC.SET (41_encode.md R99). -/
def execEncSet (s : State) : Host.Outcome State Fault Refusal := present 0x10 (encAccept 0x10 packSet) s

/-- ENC.GETREQ (41_encode.md R100). -/
def execEncGetReq (s : State) : Host.Outcome State Fault Refusal := present 0x11 (encAccept 0x11 packGetReq) s

/-- ENC.STATE (41_encode.md R101). -/
def execEncState (s : State) : Host.Outcome State Fault Refusal := present 0x12 (encAccept 0x12 packState) s

/-- ENC.GETRESP (41_encode.md R102). -/
def execEncGetResp (s : State) : Host.Outcome State Fault Refusal := present 0x13 (encAccept 0x13 packGetResp) s

/-- OFFER (20_memory.md R60): FBUF[CNT] below 25, the checksum ACC at 25. -/
def offer (s : State) : Byte := if s.cnt.toNat < Config.checksumOffset then byteAt s.fbuf s.cnt.toNat else s.acc

/-- The sink takes OFFER: the byte joins the TX trace (20_memory.md R60), and tx_take runs (41_encode.md R96). CNT past 25
names no offset of FBUF (log 5). -/
def txTake (s : State) : Host.Outcome State Fault Refusal :=
  if s.cnt.toNat < Config.checksumOffset then
    .next { s with
      txTrace := s.txTrace ++ [offer s], acc := accStep s.acc (byteAt s.fbuf s.cnt.toNat), cnt := s.cnt + 1 }
  else if s.cnt.toNat = Config.checksumOffset then
    .next ({ s with
      txTrace := s.txTrace ++ [offer s], fbuf := setByte s.fbuf Config.checksumOffset s.acc, cnt := 26 }.complete 0)
  else .fault (.noSuchOffset s.cnt)

/-- tx_fail (41_encode.md R97): nothing joins the TX trace, and the byte offered is not counted. -/
def txFail (s : State) : State := (s.raise .streamWriteFailure).complete (errorCode .streamWriteFailure)

end Sys2Proof.Machine
end

