-- ==== Sys2Proof/Machine/Dispatch.lean ====
section
/-!
DEFINITION. `exec`: what presenting a command to the SFC does (30_encoding.md R70 to R72), one arm per command.
-/

namespace Sys2Proof.Machine

def exec (i : Instr) (s : State) : Host.Outcome State Fault Refusal :=
  match i with
  | .csumClr => Sys2Proof.Machine.execCsumClr s
  | .csumAdd imm8 => Sys2Proof.Machine.execCsumAdd imm8 s
  | .encSet => Sys2Proof.Machine.execEncSet s
  | .encGetReq => Sys2Proof.Machine.execEncGetReq s
  | .encState => Sys2Proof.Machine.execEncState s
  | .encGetResp => Sys2Proof.Machine.execEncGetResp s
  | .decSet => Sys2Proof.Machine.execDecSet s
  | .decGet => Sys2Proof.Machine.execDecGet s
  | .decState => Sys2Proof.Machine.execDecState s

end Sys2Proof.Machine
end

