-- ==== Sys2Proof/Machine/Agents.lean ====
section
/-!
DEFINITION. What each agent's turn does: the host's register transactions (20_memory.md R52, R53), the presenting of a
command word (30_encoding.md R71 to R73), the TX sink's and the RX source's answers (20_memory.md R60, R61), and reset
(70_reset_and_hazards.md R129).
-/

namespace Sys2Proof.Machine

/-- An accepted command whose OPC is not in the opcode map (30_encoding.md R73); dropped while BUSY (R72). -/
def illegalCommand (opc : Byte) (s : State) : Host.Outcome State Fault Refusal :=
  present opc (fun s => (s.raise .illegalOp).complete (errorCode .illegalOp)) s

/-- present_command(v) (30_encoding.md R71): the decoder reads the word and the command it stands for runs. -/
def presentCommand (v : Word) (s : State) : Host.Outcome State Fault Refusal :=
  match decode v with
  | .instr i => exec i s
  | .illegalOp opc => illegalCommand opc s

/-- A host write of CTRL: soft reset where bit 0 is 1, whatever the PHASE (20_memory.md R44; 70_reset_and_hazards.md R130). -/
def writeCtrl (v : Word) (s : State) : State := if v.getLsbD 0 then s.resetSfc else s

/-- HWR of a named register (20_memory.md R53). -/
def writeReg (r : Reg) (v : Word) (s : State) : Host.Outcome State Fault Refusal :=
  match r with
  | .ctrl => .next (writeCtrl v s)
  | .cmd => presentCommand v s
  | r => .next (writeField r v s)

/-- HWR(idx, v) (20_memory.md R53): a reserved index ignores the write (R51). -/
def hostWrite (idx : RegIndex) (v : Word) (s : State) : Host.Outcome State Fault Refusal :=
  match regAt idx with
  | some r => writeReg r v s
  | none => .next s

/-- HRD(idx) (20_memory.md R52): the value joins the run's observation (00_scope.md R11) and nothing else changes. -/
def hostRead (idx : RegIndex) (s : State) : State := { s with readLog := s.readLog ++ [readIndex idx s] }

/-- One turn of `wait` (30_encoding.md R84): a read of STATUS; the loop ends where the value read has bit 0 = 0. -/
def hostPoll (rest : List HostOp) (s : State) : State :=
  if (readIndex (regIndex .status) s).getLsbD 0 then hostRead (regIndex .status) s
  else { hostRead (regIndex .status) s with host := rest }

/-- The host's turn: its next transaction in program order (20_memory.md R64); nothing where it has none. -/
def hostTurn (s : State) : Host.Outcome State Fault Refusal :=
  match s.host with
  | [] => .next s
  | .rd idx :: rest => .next (hostRead idx { s with host := rest })
  | .wr idx v :: rest => hostWrite idx v { s with host := rest }
  | .wait :: rest => .next (hostPoll rest s)

/-- The TX sink's turn: enabled exactly when PHASE = TX (20_memory.md R60). Not enabled, or with no answer to give, it
changes nothing (log 2). -/
def sinkTurn (s : State) : Host.Outcome State Fault Refusal :=
  if s.phase = .tx then
    match s.sink with
    | [] => .next s
    | .take :: rest => txTake { s with sink := rest }
    | .fail :: rest => .next (txFail { s with sink := rest })
  else .next s

/-- The RX source's turn: enabled exactly when PHASE = RX (20_memory.md R61). While the RX port is not ready the SFC takes
no byte (R62): the source keeps its answer, and nothing changes (log 2). -/
def sourceTurn (s : State) : Host.Outcome State Fault Refusal :=
  if s.phase = .rx then
    match s.source with
    | [] => .next s
    | .deliver b :: rest => rxDeliver b { s with source := rest }
    | .timeout :: rest => .next (rxTimeout { s with source := rest })
  else .next s

/-- One agent's turn (00_scope.md R6; 20_memory.md R64). -/
def agentTurn (a : Agent) (s : State) : Host.Outcome State Fault Refusal :=
  match a with
  | .host => hostTurn s
  | .txSink => sinkTurn s
  | .rxSource => sourceTurn s
  | .resetInput => .next s.resetSfc

/-- The agents' next step, in the interleaving the state holds (20_memory.md R64); with no step to come nothing moves
(60_exceptions.md R128; log 2). -/
def nextTurn (s : State) : Host.Outcome State Fault Refusal :=
  match s.turns with
  | [] => .next s
  | a :: rest => agentTurn a { s with turns := rest }

/-- `s` with the command word `w` (its low `nbits` bits) as the host's next transaction, and the host next to move. -/
def withHostCommand (s : State) (nbits w : Nat) : State :=
  { s with
    turns := .host :: s.turns
    host := .wr (regIndex .cmd) (BitVec.ofNat 32 (w % 2 ^ nbits)) :: s.host }

end Sys2Proof.Machine
end

