-- ==== Sys2Proof/Machine/Step.lean ====
section
/-!
DEFINITION. One step of the machine (00_scope.md R5), and where the host's next command is placed.
-/

namespace Sys2Proof.Machine

/-- One atomic step of one agent (00_scope.md R5; 20_memory.md R64; 60_exceptions.md R122). -/
def step (s : State) : Host.Outcome State Fault Refusal := nextTurn s

/-- `s` with the command word `w` where `step` takes its next command: the host is next to move, and its next
transaction is the CMD write of `w` (log 3). -/
def State.withFetchWord (s : State) (nbits w : Nat) : State := withHostCommand s nbits w

end Sys2Proof.Machine
end

