-- ==== Sys2Proof/Safety.lean ====
section
/-!
DEFINITION. The terms in which statements speak of runs: several steps, the checksum as the source defines it
(40_checksum.md R88), what a step keeps, legal states, and the host's obligations (70_reset_and_hazards.md R132, R133,
R140).
-/

namespace Sys2Proof.Machine

/-- `n` steps, stopping at the first fault or refusal. -/
def runSteps : Nat → State → Host.Outcome State Fault Refusal
  | 0, s => .next s
  | n + 1, s =>
    match step s with
    | .next t => runSteps n t
    | .fault r => .fault r
    | .refused r => .refused r

/-- The sum of a list of bytes as numbers, not reduced. -/
def byteSum (bs : List Byte) : Nat := (bs.map BitVec.toNat).sum

/-- FBUF[0], ..., FBUF[n - 1], in offset order. -/
def frameBytes (m : Memory) (n : Nat) : List Byte := (List.range n).map (byteAt m)

/-- checksum(F) = (F[0] + ... + F[24]) mod 256 (40_checksum.md R88). -/
def checksum (m : Memory) : Nat := byteSum (frameBytes m 25) % 256

/-- The opcodes of the encoders (30_encoding.md R70). -/
def isEncoderOp (opc : Byte) : Bool := opc == 0x10 || opc == 0x11 || opc == 0x12 || opc == 0x13

/-- The twelve field registers (10_state.md R27 to R38) hold in `t` what they hold in `s`. -/
def FieldsKept (s t : State) : Prop :=
  t.fAddr = s.fAddr ∧ t.fNewAddr = s.fNewAddr ∧ t.fKind = s.fKind ∧ t.fValue = s.fValue ∧ t.fMaxI = s.fMaxI ∧
  t.fMaxP = s.fMaxP ∧ t.fState = s.fState ∧ t.fCurrent = s.fCurrent ∧ t.fVoltage = s.fVoltage ∧
  t.fPower = s.fPower ∧ t.fRes = s.fRes ∧ t.fGStatus = s.fGStatus

/-- The other agents and the observation of the run are in `t` as they are in `s`. -/
def OutsideKept (s t : State) : Prop :=
  t.host = s.host ∧ t.sink = s.sink ∧ t.source = s.source ∧ t.turns = s.turns ∧
  t.txTrace = s.txTrace ∧ t.readLog = s.readLog

/-- `t` is in phase `ph` just after a frame command of opcode `opc` was accepted (41_encode.md R95, 42_decode.md R103):
nothing transferred, nothing summed, no error, OVR as it was. -/
def Started (opc : Byte) (ph : Phase) (s t : State) : Prop :=
  t.phase = ph ∧ t.lastOp = opc ∧ t.cnt = 0 ∧ t.acc = 0 ∧ t.done = false ∧ t.dvalid = false ∧ t.ovr = s.ovr ∧
  t.err = 0 ∧ t.errf = 0

/-- `t` is the SFC after a command completed with no error and no decoded frame (60_exceptions.md R118). -/
def CompletedClean (t : State) : Prop :=
  t.phase = .idle ∧ t.done = true ∧ t.dvalid = false ∧ t.err = 0 ∧ t.errf = 0

/-- The ERRF values that one command can leave (60_exceptions.md R116): none, one flag of codes 1 to 6, the two
operand flags together, or any set of the three frame-check flags. -/
def possibleFlags : List (BitVec 9) :=
  [0x000, 0x001, 0x002, 0x004, 0x006, 0x008, 0x010, 0x020,
   0x040, 0x080, 0x0C0, 0x100, 0x140, 0x180, 0x1C0]

/-- A legal state: what the rules say of every state a run reaches. -/
structure State.Legal (s : State) : Prop where
  /-- FBUF is in canonical form and has no offset past 25 (20_memory.md R42; log 4). -/
  memory : s.fbuf.wf = true
  /-- CNT never exceeds 26 (10_state.md R19). -/
  cnt_le : s.cnt.toNat ≤ 26
  /-- ERR is the highest-priority flag of ERRF (10_state.md R25; 60_exceptions.md R117). -/
  err_reports : s.err = priority s.errf
  /-- Only the combinations of 60_exceptions.md R116. -/
  flags_possible : s.errf ∈ possibleFlags
  /-- No flag is set while a command is in progress (30_encoding.md R71). -/
  running_clean : s.done = false → s.errf = 0
  /-- BUSY and DONE are never both 1 (20_memory.md R46). -/
  done_idle : s.done = true → s.phase = .idle
  /-- DVALID is 1 exactly when the last command completed was a decoder that completed with ERR = 0 (10_state.md R23). -/
  dvalid_iff : s.dvalid = true ↔ s.done = true ∧ s.err = 0 ∧ isDecoderOp s.lastOp = true
  /-- In TX: an encoder, at most 25 bytes taken, ACC their sum, the checksum byte not yet written (41_encode.md R95, R96). -/
  sending : s.phase = .tx →
    isEncoderOp s.lastOp = true ∧ s.cnt.toNat ≤ 25 ∧ s.acc.toNat = byteSum (frameBytes s.fbuf s.cnt.toNat) % 256 ∧
    byteAt s.fbuf 0 = Config.startByte ∧ byteAt s.fbuf 25 = 0
  /-- In RX: a decoder, at most 25 bytes received, ACC their sum, the rest of FBUF still clear (42_decode.md R103, R104). -/
  receiving : s.phase = .rx →
    isDecoderOp s.lastOp = true ∧ s.cnt.toNat ≤ 25 ∧ s.acc.toNat = byteSum (frameBytes s.fbuf s.cnt.toNat) % 256 ∧
    ∀ a, s.cnt.toNat ≤ a → byteAt s.fbuf a = 0
  /-- While DVALID = 1, FBUF holds 26 received bytes that passed all three checks (42_decode.md R105). -/
  decoded : s.dvalid = true →
    s.cnt = 26 ∧ byteAt s.fbuf 0 = Config.startByte ∧ byteAt s.fbuf 2 = expectedCommand s.lastOp ∧
    (byteAt s.fbuf 25).toNat = checksum s.fbuf

/-- The host may use the views of the decoder `opc` (70_reset_and_hazards.md R133). -/
def ViewsUsable (opc : Byte) (s : State) : Prop := s.busy = false ∧ s.dvalid = true ∧ s.lastOp = opc

/-- The host has so far written no command while BUSY = 1 (70_reset_and_hazards.md R132). -/
def HostWaited (s : State) : Prop := s.ovr = false

/-- The run has ended (70_reset_and_hazards.md R140). DESIGN CHOICE (log 15): "the host's last command" is taken to be the
last command ACCEPTED, the one DONE is about (10_state.md R22). So a run whose last CMD write was dropped (30_encoding.md
R72) has ended once the earlier, accepted command has completed; the spec does not say which command is meant. -/
def RunEnded (s : State) : Prop := s.phase = .idle ∧ s.done = true ∧ s.host = []

/-- The operands an encoder's checks let through (41_encode.md R94). -/
def OperandsValid (i : Instr) (s : State) : Prop :=
  s.fAddr ≠ 0xFF ∧
  (i = .encSet → s.fNewAddr ≠ 0xFF ∧
    (s.fKind = Config.kindCurrent ∨ s.fKind = Config.kindPower ∨ s.fKind = Config.kindResistance))

/-- `s` with the host about to write the command `i` and the TX sink about to take a whole frame. -/
def withSending (i : Instr) (s : State) : State :=
  { s with
    turns := .host :: List.replicate 26 .txSink ++ s.turns
    host := commandLine i :: s.host
    sink := List.replicate 26 .take ++ s.sink }

/-- `s` with the host about to write the command `i` and the RX source about to deliver the bytes `bs`. -/
def withReceiving (i : Instr) (bs : List Byte) (s : State) : State :=
  { s with
    turns := .host :: List.replicate bs.length .rxSource ++ s.turns
    host := commandLine i :: s.host
    source := bs.map .deliver ++ s.source }

/-- `s` with the host about to run the pseudo-instruction `query` (30_encoding.md R86) against a sink that takes the
request and a source that answers with the bytes `bs`; the two polls of `wait` come when the frames have passed. -/
def withQuery (bs : List Byte) (s : State) : State :=
  { s with
    turns := .host :: List.replicate 26 .txSink ++ [.host, .host] ++ List.replicate bs.length .rxSource
      ++ [.host] ++ s.turns
    host := assembleLine .query ++ s.host
    sink := List.replicate 26 .take ++ s.sink
    source := bs.map .deliver ++ s.source }

/-- The field registers and their masks (20_memory.md R49). -/
def fieldMasks : List (Reg × Word) :=
  [(.fAddr, 0xFF), (.fNewAddr, 0xFF), (.fKind, 0xFF), (.fValue, 0xFFFF), (.fMaxI, 0xFFFF), (.fMaxP, 0xFFFF),
   (.fState, 0x3), (.fCurrent, 0xFFFF), (.fVoltage, 0xFFFFFFFF), (.fPower, 0xFFFF), (.fRes, 0xFFFF), (.fGStatus, 0x3F)]

/-- The read-only registers (20_memory.md R43, access R). -/
def readOnlyRegs : List Reg :=
  [.status, .errf, .acc, .fbuf0, .fbuf1, .fbuf2, .fbuf3, .fbuf4, .fbuf5, .fbuf6, .dHdr, .dgCurrent, .dgVoltage,
   .dgPower, .dgMaxI, .dgMaxP, .dgRes, .dgFlags, .dsMaxI, .dsMaxP, .dsNewAddr, .dsKind, .dsValue, .dtState]

/-- Bytes 0 to 2 of a frame (30_encoding.md R74). -/
def HeaderIs (m : Memory) (address command : Byte) : Prop :=
  byteAt m 0 = Config.startByte ∧ byteAt m 1 = address ∧ byteAt m 2 = command

/-- FBUF[lo], ..., FBUF[hi] are 0x00. -/
def ZeroBetween (m : Memory) (lo hi : Nat) : Prop := ∀ a, lo ≤ a → a ≤ hi → byteAt m a = 0

/-- No byte but FBUF[0], ..., FBUF[25] differs. -/
def OutsideFrameKept (m m' : Memory) : Prop := ∀ a, 26 ≤ a → byteAt m' a = byteAt m a

/-- The decoders and the command byte each expects (10_state.md R18). -/
def decoders : List (Instr × Byte) :=
  [(.decSet, Config.cmdSet), (.decGet, Config.cmdGet), (.decState, Config.cmdState)]

end Sys2Proof.Machine
end

