-- ==== Sys2Proof/Certificates/Slice0/Obligations.lean ====
section
/-!
DEFINITION. The statements about the SFC, each a proposition named for what it states (OBLIGATIONS.json lists them).
-/

open Sys2Proof Sys2Proof.Machine

/-! ### Command words -/

/-- 30_encoding.md R68 to R70: a command decodes from its encoding, and the words that decode to it are exactly those
with its opcode in bits 7:0 and, for CSUM.ADD, its byte in bits 15:8. -/
def Obligations.DecodeAndEncodeAgree : Prop :=
  (∀ i : Instr, i.WellFormed = true → decode (encode i) = .instr i) ∧
  ∀ (i : Instr) (v : Word),
    decode v = .instr i ↔ opcField v = opcodeOf i ∧ ∀ b, i = .csumAdd b → dataField v = b

/-- 30_encoding.md R70: nine words written out, one for each command. -/
def Obligations.SpecWordsDecode : Prop :=
  decode 0x0000AB01 = .instr .csumClr ∧ decode 0xFFFF5C02 = .instr (.csumAdd 0x5C) ∧
  decode 0x00000010 = .instr .encSet ∧ decode 0x00003311 = .instr .encGetReq ∧ decode 0xFFFFFF12 = .instr .encState ∧
  decode 0x00000013 = .instr .encGetResp ∧ decode 0x00000020 = .instr .decSet ∧ decode 0x80000121 = .instr .decGet ∧
  decode 0x00000022 = .instr .decState ∧ decode 0x00000000 = .illegalOp 0x00 ∧ decode 0x000002FF = .illegalOp 0xFF

/-- 30_encoding.md R73: an accepted command whose OPC is 0x00, 0x03 to 0x0F, 0x14 to 0x1F or 0x23 to 0xFF raises
ILLEGAL_OP and completes within its acceptance step, and changes nothing else: so presented, so written to CMD, and so in
the step of the host's turn that writes it. -/
def Obligations.UnlistedOpcodeCompletesWithIllegalOp : Prop :=
  ∀ (v : Word) (s : State), s.phase = .idle →
    (let n := (opcField v).toNat
     n = 0x00 ∨ (0x03 ≤ n ∧ n ≤ 0x0F) ∨ (0x14 ≤ n ∧ n ≤ 0x1F) ∨ (0x23 ≤ n ∧ n ≤ 0xFF)) →
    decode v = .illegalOp (opcField v) ∧
    presentCommand v s =
      .next { s with lastOp := opcField v, done := true, dvalid := false, err := 1, errf := 0x001 } ∧
    hostWrite 0x01 v s =
      .next { s with lastOp := opcField v, done := true, dvalid := false, err := 1, errf := 0x001 } ∧
    ∀ (ts : List Agent) (h : List HostOp), s.turns = .host :: ts → s.host = .wr 0x01 v :: h →
      step s = .next { s with
        turns := ts, host := h, lastOp := opcField v, done := true, dvalid := false, err := 1, errf := 0x001 }

/-- 30_encoding.md R72: while BUSY = 1 every command word, legal or not, is dropped; OVR is set and nothing else changes. -/
def Obligations.CommandWriteWhileBusyIsDropped : Prop :=
  ∀ (v : Word) (s : State), s.phase ≠ .idle →
    hostWrite (regIndex .cmd) v s = .next { s with ovr := true } ∧
    ∀ i : Instr, exec i s = .next { s with ovr := true }

/-- A step of the host's turn with a CMD write as its next transaction runs the decoded command, with the turn and the
transaction consumed (20_memory.md R53, 30_encoding.md R71); and `withFetchWord` places such a write (log 3). -/
def Obligations.StepRunsTheDecodedCommand : Prop :=
  (∀ (s : State) (ts : List Agent) (h : List HostOp) (v : Word) (i : Instr),
    s.turns = .host :: ts → s.host = .wr (regIndex .cmd) v :: h → decode v = .instr i → i.WellFormed = true →
    step s = exec i { s with turns := ts, host := h }) ∧
  ∀ (s : State) (w : Nat) (i : Instr),
    decode (BitVec.ofNat 32 w) = .instr i → step (s.withFetchWord 32 w) = exec i s

/-! ### The checksum family -/

/-- 40_checksum.md R91, whole: any word with OPC 0x01 is CSUM.CLR; accepted, it clears ACC and completes; while BUSY = 1
it is dropped; and STATUS then reads 0x00010002 when CNT = 0 and OVR = 0. -/
def Obligations.CsumClrClearsTheAccumulator : Prop :=
  (∀ v : Word, opcField v = 0x01 → decode v = .instr .csumClr) ∧
  ∀ s : State,
    (s.phase = .idle → ∃ t, exec .csumClr s = .next t ∧
      t = { s with lastOp := 0x01, done := true, dvalid := false, err := 0, errf := 0, acc := 0x00 } ∧
      (∀ a, byteAt t.fbuf a = byteAt s.fbuf a) ∧
      (s.cnt = 0 → s.ovr = false → readIndex 0x02 t = 0x00010002)) ∧
    (s.phase ≠ .idle → exec .csumClr s = .next { s with ovr := true })

/-- 40_checksum.md R92, whole: any word with OPC 0x02 is CSUM.ADD of its bits 15:8; accepted, it adds the byte to ACC
modulo 256 and completes; while BUSY = 1 it is dropped. -/
def Obligations.CsumAddAddsItsByteModulo256 : Prop :=
  (∀ v : Word, opcField v = 0x02 → decode v = .instr (.csumAdd (dataField v))) ∧
  ∀ (b : Byte) (s : State),
    (s.phase = .idle → ∃ t, exec (.csumAdd b) s = .next t ∧
      t = { s with
        lastOp := 0x02, done := true, dvalid := false, err := 0, errf := 0
        acc := BitVec.ofNat 8 ((s.acc.toNat + b.toNat) % 256) } ∧
      ∀ a, byteAt t.fbuf a = byteAt s.fbuf a) ∧
    (s.phase ≠ .idle → exec (.csumAdd b) s = .next { s with ovr := true })

/-- 40_checksum.md R89: reducing at every byte gives the sum reduced once. -/
def Obligations.ReducingAtEveryByteGivesTheSumModulo256 : Prop :=
  ∀ (bs : List Byte) (acc : Byte), (bs.foldl accStep acc).toNat = (acc.toNat + byteSum bs) % 256

/-- 30_encoding.md R85: `csum b0, ..., bn` is CSUM.CLR and then CSUM.ADD of each byte, and the host that runs it without
waiting, from an idle SFC, leaves the checksum of the list in ACC. -/
def Obligations.CsumLineLeavesTheChecksumInAcc : Prop :=
  ∀ (bs : List Byte) (s : State) (ts : List Agent) (h : List HostOp),
    bs ≠ [] → s.phase = .idle →
    s.turns = List.replicate (bs.length + 1) .host ++ ts →
    s.host = assembleLine (.csum (bs.map BitVec.toNat)) ++ h →
    assembleLine (.csum (bs.map BitVec.toNat)) =
      commandLine .csumClr :: bs.map (fun b => commandLine (.csumAdd b)) ∧
    ∃ t, runSteps (bs.length + 1) s = .next t ∧
      t = { s with
        turns := ts, host := h, lastOp := 0x02, done := true, dvalid := false, err := 0, errf := 0
        acc := BitVec.ofNat 8 (byteSum bs % 256) }

/-- 40_checksum.md R93: of the accumulator's running sum, a change of one byte always changes it and a change of order
never does; and a decoder that accepts a frame accepts, with the same ACC, every frame that differs from it only in bytes
whose running sum is the same, a change of their order among these, and decodes the changed bytes. -/
def Obligations.ChecksumSeesOneByteButNotTheOrder : Prop :=
  (∀ (bs : List Byte) (acc : Byte) (j : Nat) (b : Byte), j < bs.length → b ≠ bs.getD j 0 →
    (bs.set j b).foldl accStep acc ≠ bs.foldl accStep acc) ∧
  (∀ (bs bs' : List Byte) (acc : Byte), bs.Perm bs' → bs'.foldl accStep acc = bs.foldl accStep acc) ∧
  ∀ (d : Instr × Byte) (bs bs' : List Byte) (s t : State),
    d ∈ decoders → bs.length = 26 → bs'.length = 26 → s.phase = .idle →
    runSteps 27 (withReceiving d.1 bs s) = .next t → t.err = 0 →
    bs'.getD 0 0 = bs.getD 0 0 → bs'.getD 2 0 = bs.getD 2 0 → bs'.getD 25 0 = bs.getD 25 0 →
    (bs.take 25).Perm (bs'.take 25) ∨ (bs'.take 25).foldl accStep 0 = (bs.take 25).foldl accStep 0 →
    ∃ u, runSteps 27 (withReceiving d.1 bs' s) = .next u ∧
      u.err = 0 ∧ u.errf = 0 ∧ u.dvalid = true ∧ u.acc = t.acc ∧ frameBytes u.fbuf 26 = bs'

/-! ### The encoders -/

/-- 41_encode.md R99: ENC.SET with valid operands, accepted, packs the Set frame of 30_encoding.md R75 and starts to
send; the field registers, the rest of memory and everything outside the SFC are kept. -/
def Obligations.EncSetPacksTheSetFrame : Prop :=
  ∀ s : State, s.phase = .idle → OperandsValid .encSet s →
    ∃ t, exec .encSet s = .next t ∧ Started 0x10 .tx s t ∧
      HeaderIs t.fbuf s.fAddr 0x90 ∧
      memRead t.fbuf 3 2 = s.fMaxI.toNat ∧ memRead t.fbuf 5 2 = s.fMaxP.toNat ∧
      byteAt t.fbuf 7 = s.fNewAddr ∧ byteAt t.fbuf 8 = s.fKind ∧ memRead t.fbuf 9 2 = s.fValue.toNat ∧
      ZeroBetween t.fbuf 11 25 ∧ OutsideFrameKept s.fbuf t.fbuf ∧ FieldsKept s t ∧ OutsideKept s t

/-- 41_encode.md R100: ENC.GETREQ with a valid address, whatever the other fields hold, packs the Get request of
30_encoding.md R76 and starts to send. -/
def Obligations.EncGetReqPacksTheGetRequest : Prop :=
  ∀ s : State, s.phase = .idle → s.fAddr ≠ 0xFF →
    ∃ t, exec .encGetReq s = .next t ∧ Started 0x11 .tx s t ∧
      HeaderIs t.fbuf s.fAddr 0x91 ∧ ZeroBetween t.fbuf 3 25 ∧
      OutsideFrameKept s.fbuf t.fbuf ∧ FieldsKept s t ∧ OutsideKept s t

/-- 41_encode.md R101: ENC.STATE with a valid address packs the State frame of 30_encoding.md R78, with bit 0 of byte 3
F_STATE's ENABLED, bit 1 its REMOTE and bits 7:2 zero, and starts to send. -/
def Obligations.EncStatePacksTheStateFrame : Prop :=
  ∀ s : State, s.phase = .idle → s.fAddr ≠ 0xFF →
    ∃ t, exec .encState s = .next t ∧ Started 0x12 .tx s t ∧
      HeaderIs t.fbuf s.fAddr 0x92 ∧
      (byteAt t.fbuf 3).getLsbD 0 = s.fState.getLsbD 0 ∧ (byteAt t.fbuf 3).getLsbD 1 = s.fState.getLsbD 1 ∧
      (byteAt t.fbuf 3).extractLsb' 2 6 = 0 ∧
      ZeroBetween t.fbuf 4 25 ∧ OutsideFrameKept s.fbuf t.fbuf ∧ FieldsKept s t ∧ OutsideKept s t

/-- 41_encode.md R102: ENC.GETRESP with a valid address packs the Get response of 30_encoding.md R77, with the six
flags of F_GSTATUS in bits 5:0 of byte 17 and bits 7:6 zero, and starts to send. -/
def Obligations.EncGetRespPacksTheGetResponse : Prop :=
  ∀ s : State, s.phase = .idle → s.fAddr ≠ 0xFF →
    ∃ t, exec .encGetResp s = .next t ∧ Started 0x13 .tx s t ∧
      HeaderIs t.fbuf s.fAddr 0x91 ∧
      memRead t.fbuf 3 2 = s.fCurrent.toNat ∧ memRead t.fbuf 5 4 = s.fVoltage.toNat ∧
      memRead t.fbuf 9 2 = s.fPower.toNat ∧ memRead t.fbuf 11 2 = s.fMaxI.toNat ∧
      memRead t.fbuf 13 2 = s.fMaxP.toNat ∧ memRead t.fbuf 15 2 = s.fRes.toNat ∧
      (byteAt t.fbuf 17).extractLsb' 0 6 = s.fGStatus ∧ (byteAt t.fbuf 17).extractLsb' 6 2 = 0 ∧
      ZeroBetween t.fbuf 18 25 ∧ OutsideFrameKept s.fbuf t.fbuf ∧ FieldsKept s t ∧ OutsideKept s t

/-- 41_encode.md R94, R95: an encoder whose operands are not valid completes in its acceptance step with every flag its
checks raise, ERR the address error before the kind error, and FBUF, ACC and CNT unchanged; nothing is sent. -/
def Obligations.InvalidOperandsEndTheEncoder : Prop :=
  ∀ (i : Instr) (s : State),
    i = .encSet ∨ i = .encGetReq ∨ i = .encState ∨ i = .encGetResp →
    s.phase = .idle → ¬ OperandsValid i s →
    exec i s = .next { s with
      lastOp := opcodeOf i, done := true, dvalid := false
      errf := (if s.fAddr = 0xFF ∨ (i = .encSet ∧ s.fNewAddr = 0xFF) then 0x002 else 0x000)
        ||| (if i = .encSet ∧ s.fKind ≠ 1 ∧ s.fKind ≠ 2 ∧ s.fKind ≠ 3 then 0x004 else 0x000)
      err := if s.fAddr = 0xFF ∨ (i = .encSet ∧ s.fNewAddr = 0xFF) then 2 else 3 }

/-- 30_encoding.md R79, 41_encode.md R102: with every operand but F_ADDR zero, ENC.GETRESP packs the same 26 bytes as
ENC.GETREQ. -/
def Obligations.ZeroGetResponseIsTheGetRequest : Prop :=
  ∀ s : State, s.phase = .idle → s.fAddr ≠ 0xFF →
    s.fCurrent = 0 → s.fVoltage = 0 → s.fPower = 0 → s.fMaxI = 0 → s.fMaxP = 0 → s.fRes = 0 → s.fGStatus = 0 →
    ∃ t u, exec .encGetReq s = .next t ∧ exec .encGetResp s = .next u ∧ frameBytes t.fbuf 26 = frameBytes u.fbuf 26

/-- 20_memory.md R60, 41_encode.md R96: what a TAKE does below offset 25 and at offset 25. -/
def Obligations.TakeSendsTheOfferedByte : Prop :=
  ∀ (s : State) (ts : List Agent) (k : List TxAnswer),
    s.turns = .txSink :: ts → s.sink = .take :: k → s.phase = .tx →
    (s.cnt.toNat < 25 →
      step s = .next { s with
        turns := ts, sink := k, txTrace := s.txTrace ++ [byteAt s.fbuf s.cnt.toNat], cnt := s.cnt + 1
        acc := BitVec.ofNat 8 ((s.acc.toNat + (byteAt s.fbuf s.cnt.toNat).toNat) % 256) }) ∧
    (s.cnt.toNat = 25 →
      ∃ t, step s = .next t ∧
        t = { s with
          turns := ts, sink := k, txTrace := s.txTrace ++ [s.acc], fbuf := t.fbuf, cnt := 26
          phase := .idle, done := true, err := 0, dvalid := isDecoderOp s.lastOp } ∧
        byteAt t.fbuf 25 = s.acc ∧ ∀ a, a ≠ 25 → byteAt t.fbuf a = byteAt s.fbuf a)

/-- 41_encode.md R97: a FAIL ends the encoder with STREAM_WRITE_FAILURE and changes nothing else; in a legal state CNT is
at most 25, ACC is the sum of the CNT bytes sent, and byte 25 was not written. -/
def Obligations.FailEndsTheEncoder : Prop :=
  ∀ (s : State) (ts : List Agent) (k : List TxAnswer),
    s.Legal → s.turns = .txSink :: ts → s.sink = .fail :: k → s.phase = .tx →
    ∃ t, step s = .next t ∧
      t = { s with
        turns := ts, sink := k, phase := .idle, done := true, dvalid := false, err := 4, errf := 0x008 } ∧
      (∀ a, byteAt t.fbuf a = byteAt s.fbuf a) ∧
      t.cnt.toNat ≤ 25 ∧ t.acc.toNat = byteSum (frameBytes t.fbuf t.cnt.toNat) % 256 ∧ byteAt t.fbuf 25 = 0

/-- 41_encode.md R98: an encoder accepted with valid operands, whose sink answers TAKE 26 times, sends exactly its 26
bytes in offset order, the last of them the checksum of the others. -/
def Obligations.EncoderSendsItsWholeFrame : Prop :=
  ∀ (i : Instr) (s : State),
    i = .encSet ∨ i = .encGetReq ∨ i = .encState ∨ i = .encGetResp →
    s.phase = .idle → OperandsValid i s →
    ∃ a t, exec i s = .next a ∧ runSteps 27 (withSending i s) = .next t ∧
      t.txTrace = s.txTrace ++ frameBytes t.fbuf 26 ∧
      frameBytes t.fbuf 25 = frameBytes a.fbuf 25 ∧
      t.acc = byteAt t.fbuf 25 ∧ t.acc.toNat = checksum t.fbuf ∧
      t.cnt = 26 ∧ CompletedClean t ∧ t.lastOp = opcodeOf i ∧ t.ovr = s.ovr ∧ FieldsKept s t ∧
      t.host = s.host ∧ t.sink = s.sink ∧ t.source = s.source ∧ t.turns = s.turns ∧ t.readLog = s.readLog

/-- 41_encode.md R95, 70_reset_and_hazards.md R134: a field write during TX and a step of the sink commute, so that no
byte of the frame in flight depends on it. -/
def Obligations.FieldWritesDoNotReachTheFrameInFlight : Prop :=
  ∀ (r : Reg) (m v : Word) (s s₁ t₁ : State),
    (r, m) ∈ fieldMasks → s.phase = .tx → hostWrite (regIndex r) v s = .next s₁ → sinkTurn s₁ = .next t₁ →
    ∃ t, sinkTurn s = .next t ∧ t.txTrace = t₁.txTrace ∧ t.fbuf = t₁.fbuf ∧ hostWrite (regIndex r) v t = .next t₁

/-! ### The decoders -/

/-- 42_decode.md R103: a decoder's acceptance never fails: it clears FBUF, ACC and CNT and starts to receive. -/
def Obligations.DecodersStartToReceive : Prop :=
  ∀ (i : Instr) (s : State),
    i = .decSet ∨ i = .decGet ∨ i = .decState → s.phase = .idle →
    ∃ t, exec i s = .next t ∧ Started (opcodeOf i) .rx s t ∧ ZeroBetween t.fbuf 0 25 ∧
      OutsideFrameKept s.fbuf t.fbuf ∧ FieldsKept s t ∧ OutsideKept s t

/-- 42_decode.md R104: a DELIVER below offset 25 stores the byte at FBUF[CNT] and adds it to ACC. -/
def Obligations.DeliverStoresAndSumsTheByte : Prop :=
  ∀ (s : State) (ts : List Agent) (b : Byte) (k : List RxAnswer),
    s.turns = .rxSource :: ts → s.source = .deliver b :: k → s.phase = .rx → s.cnt.toNat < 25 →
    ∃ t, step s = .next t ∧
      t = { s with
        turns := ts, source := k, fbuf := t.fbuf, cnt := s.cnt + 1
        acc := BitVec.ofNat 8 ((s.acc.toNat + b.toNat) % 256) } ∧
      byteAt t.fbuf s.cnt.toNat = b ∧ ∀ a, a ≠ s.cnt.toNat → byteAt t.fbuf a = byteAt s.fbuf a

/-- 42_decode.md R105: the 26th DELIVER stores the byte, makes all three checks, each with its own flag, and completes
with the first failing check in the order start, command, checksum; ACC is not changed. -/
def Obligations.LastDeliverChecksTheFrame : Prop :=
  ∀ (s : State) (ts : List Agent) (b : Byte) (k : List RxAnswer),
    s.turns = .rxSource :: ts → s.source = .deliver b :: k → s.phase = .rx → s.cnt.toNat = 25 → s.errf = 0 →
    ∃ t, step s = .next t ∧
      t = { s with
        turns := ts, source := k, fbuf := t.fbuf, cnt := 26, phase := .idle, done := true
        errf := (if byteAt s.fbuf 0 ≠ 0xAA then 0x040 else 0x000)
          ||| (if byteAt s.fbuf 2 ≠ expectedCommand s.lastOp then 0x080 else 0x000)
          ||| (if b ≠ s.acc then 0x100 else 0x000)
        err := if byteAt s.fbuf 0 ≠ 0xAA then 7
          else if byteAt s.fbuf 2 ≠ expectedCommand s.lastOp then 8
          else if b ≠ s.acc then 9 else 0
        dvalid := decide (byteAt s.fbuf 0 = 0xAA ∧ byteAt s.fbuf 2 = expectedCommand s.lastOp ∧ b = s.acc) &&
          isDecoderOp s.lastOp } ∧
      byteAt t.fbuf 25 = b ∧ ∀ a, a ≠ 25 → byteAt t.fbuf a = byteAt s.fbuf a

/-- 42_decode.md R106: TIMEOUT with no byte received is STREAM_TIMEOUT and otherwise SHORT_READ; no frame check is made;
in a legal state ACC is the sum of the CNT bytes received and the rest of FBUF is zero. -/
def Obligations.TimeoutEndsTheDecoder : Prop :=
  ∀ (s : State) (ts : List Agent) (k : List RxAnswer),
    s.Legal → s.turns = .rxSource :: ts → s.source = .timeout :: k → s.phase = .rx →
    ∃ t, step s = .next t ∧
      t = { s with
        turns := ts, source := k, phase := .idle, done := true, dvalid := false
        err := if s.cnt = 0 then 5 else 6
        errf := if s.cnt = 0 then 0x010 else 0x020 } ∧
      (∀ a, byteAt t.fbuf a = byteAt s.fbuf a) ∧
      t.cnt.toNat ≤ 25 ∧ t.acc.toNat = byteSum (frameBytes t.fbuf t.cnt.toNat) % 256 ∧
      ∀ a, t.cnt.toNat ≤ a → byteAt t.fbuf a = 0

/-- 42_decode.md R104, R105: a decoder accepted while idle, given 26 bytes, holds exactly them and reports start,
command and checksum by their flags and the first by ERR; DVALID = 1 exactly when all three checks pass. -/
def Obligations.DecoderReceivesAndChecksItsFrame : Prop :=
  ∀ (d : Instr × Byte) (bs : List Byte) (s : State),
    d ∈ decoders → bs.length = 26 → s.phase = .idle →
    ∃ t, runSteps 27 (withReceiving d.1 bs s) = .next t ∧
      frameBytes t.fbuf 26 = bs ∧ t.acc.toNat = byteSum (bs.take 25) % 256 ∧ t.cnt = 26 ∧
      t.phase = .idle ∧ t.done = true ∧ t.lastOp = opcodeOf d.1 ∧ t.ovr = s.ovr ∧
      t.errf = (if bs.getD 0 0 ≠ 0xAA then 0x040 else 0x000)
        ||| (if bs.getD 2 0 ≠ d.2 then 0x080 else 0x000)
        ||| (if (bs.getD 25 0).toNat ≠ byteSum (bs.take 25) % 256 then 0x100 else 0x000) ∧
      t.err = (if bs.getD 0 0 ≠ 0xAA then 7 else if bs.getD 2 0 ≠ d.2 then 8
        else if (bs.getD 25 0).toNat ≠ byteSum (bs.take 25) % 256 then 9 else 0) ∧
      (t.dvalid = true ↔ t.errf = 0) ∧ FieldsKept s t ∧ OutsideKept s t

/-- 42_decode.md R106: a decoder given fewer than 26 bytes and then a TIMEOUT keeps the bytes, their sum and their
count, reports STREAM_TIMEOUT or SHORT_READ, and leaves DVALID = 0. -/
def Obligations.ShortFrameEndsInATimeoutError : Prop :=
  ∀ (d : Instr × Byte) (bs : List Byte) (s : State) (ts : List Agent) (h : List HostOp) (k : List RxAnswer),
    d ∈ decoders → bs.length < 26 → s.phase = .idle →
    s.turns = .host :: List.replicate (bs.length + 1) .rxSource ++ ts → s.host = commandLine d.1 :: h →
    s.source = bs.map .deliver ++ .timeout :: k →
    ∃ t, runSteps (bs.length + 2) s = .next t ∧
      frameBytes t.fbuf bs.length = bs ∧ ZeroBetween t.fbuf bs.length 25 ∧
      t.acc.toNat = byteSum bs % 256 ∧ t.cnt.toNat = bs.length ∧
      t.errf = (if bs = [] then 0x010 else 0x020) ∧ t.err = (if bs = [] then 5 else 6) ∧
      t.dvalid = false ∧ t.done = true ∧ t.phase = .idle ∧ t.ovr = s.ovr ∧ FieldsKept s t

/-- 42_decode.md R114: one changed byte in an accepted frame always sets CHECKSUM_MISMATCH, with ERR 7 at offset 0, 8 at
offset 2 and 9 elsewhere; an edited field with a recomputed checksum is accepted again. -/
def Obligations.OneChangedByteIsAlwaysDetected : Prop :=
  ∀ (d : Instr × Byte) (bs : List Byte) (s t : State),
    d ∈ decoders → bs.length = 26 → s.phase = .idle →
    runSteps 27 (withReceiving d.1 bs s) = .next t → t.err = 0 →
    (∀ (j : Nat) (b : Byte), j < 26 → b ≠ bs.getD j 0 →
      ∃ u, runSteps 27 (withReceiving d.1 (bs.set j b) s) = .next u ∧
        u.errf.getLsbD 8 = true ∧ u.dvalid = false ∧ u.err = if j = 0 then 7 else if j = 2 then 8 else 9) ∧
    ∀ (j : Nat) (b : Byte), j < 25 → j ≠ 0 → j ≠ 2 →
      ∃ u, runSteps 27 (withReceiving d.1
          ((bs.set j b).set 25 (BitVec.ofNat 8 (byteSum ((bs.set j b).take 25)))) s) = .next u ∧
        u.err = 0 ∧ u.dvalid = true

/-- 95_test_vectors.md V3 (idempotence), 42_decode.md R104, R108: what a decoder leaves is a function of its 26 bytes;
the state before it shows only in the field registers and OVR. -/
def Obligations.DecoderResultIsAFunctionOfTheBytes : Prop :=
  ∀ (d : Instr × Byte) (bs : List Byte) (s₁ s₂ t₁ t₂ : State),
    d ∈ decoders → bs.length = 26 → s₁.phase = .idle → s₂.phase = .idle →
    runSteps 27 (withReceiving d.1 bs s₁) = .next t₁ → runSteps 27 (withReceiving d.1 bs s₂) = .next t₂ →
    (∀ r ∈ readOnlyRegs, r ≠ .status → readReg r t₁ = readReg r t₂) ∧
    (s₁.ovr = s₂.ovr → readReg .status t₁ = readReg .status t₂)

/-! ### Round trips -/

/-- 42_decode.md R113: the 26 bytes ENC.SET sends, delivered to DEC.SET, decode without error to the operands. -/
def Obligations.SetFrameRoundTrips : Prop :=
  ∀ s : State, s.phase = .idle → OperandsValid .encSet s →
    ∃ u t, runSteps 27 (withSending .encSet s) = .next u ∧
      (u.txTrace.drop s.txTrace.length).length = 26 ∧
      runSteps 27 (withReceiving .decSet (u.txTrace.drop s.txTrace.length) u) = .next t ∧
      t.err = 0 ∧ t.dvalid = true ∧
      readReg .dsMaxI t = s.fMaxI.setWidth 32 ∧ readReg .dsMaxP t = s.fMaxP.setWidth 32 ∧
      readReg .dsNewAddr t = s.fNewAddr.setWidth 32 ∧ readReg .dsKind t = s.fKind.setWidth 32 ∧
      readReg .dsValue t = s.fValue.setWidth 32 ∧ (readReg .dHdr t).extractLsb' 8 8 = s.fAddr

/-- 42_decode.md R113: the 26 bytes ENC.GETRESP sends, delivered to DEC.GET, decode without error to the operands, for
all 64 values of F_GSTATUS. -/
def Obligations.GetResponseRoundTrips : Prop :=
  ∀ s : State, s.phase = .idle → s.fAddr ≠ 0xFF →
    ∃ u t, runSteps 27 (withSending .encGetResp s) = .next u ∧
      (u.txTrace.drop s.txTrace.length).length = 26 ∧
      runSteps 27 (withReceiving .decGet (u.txTrace.drop s.txTrace.length) u) = .next t ∧
      t.err = 0 ∧ t.dvalid = true ∧
      readReg .dgCurrent t = s.fCurrent.setWidth 32 ∧ readReg .dgVoltage t = s.fVoltage ∧
      readReg .dgPower t = s.fPower.setWidth 32 ∧ readReg .dgMaxI t = s.fMaxI.setWidth 32 ∧
      readReg .dgMaxP t = s.fMaxP.setWidth 32 ∧ readReg .dgRes t = s.fRes.setWidth 32 ∧
      readReg .dgFlags t = s.fGStatus.setWidth 32 ∧ (readReg .dHdr t).extractLsb' 8 8 = s.fAddr

/-- 42_decode.md R113: the 26 bytes ENC.STATE sends, delivered to DEC.STATE, decode without error to F_STATE. -/
def Obligations.StateFrameRoundTrips : Prop :=
  ∀ s : State, s.phase = .idle → s.fAddr ≠ 0xFF →
    ∃ u t, runSteps 27 (withSending .encState s) = .next u ∧
      (u.txTrace.drop s.txTrace.length).length = 26 ∧
      runSteps 27 (withReceiving .decState (u.txTrace.drop s.txTrace.length) u) = .next t ∧
      t.err = 0 ∧ t.dvalid = true ∧
      readReg .dtState t = s.fState.setWidth 32 ∧ (readReg .dHdr t).extractLsb' 8 8 = s.fAddr

/-- 30_encoding.md R86: `query` against a stream that takes the request and delivers a Get response with the right
start, command and checksum sends the Get request for F_ADDR and ends with the response decoded. -/
def Obligations.QueryDecodesTheResponse : Prop :=
  ∀ (bs : List Byte) (s : State),
    s.phase = .idle → s.fAddr ≠ 0xFF → bs.length = 26 → bs.getD 0 0 = 0xAA → bs.getD 2 0 = 0x91 →
    (bs.getD 25 0).toNat = byteSum (bs.take 25) % 256 →
    ∃ t, runSteps 56 (withQuery bs s) = .next t ∧ ViewsUsable 0x21 t ∧ t.err = 0 ∧ frameBytes t.fbuf 26 = bs ∧
      t.txTrace = s.txTrace ++ ([0xAA, s.fAddr, 0x91] ++ List.replicate 22 0x00 ++ [s.fAddr + 0x3B]) ∧
      t.host = s.host ∧ t.turns = s.turns ∧ t.sink = s.sink ∧ t.source = s.source ∧ FieldsKept s t ∧
      (t.ovr = false → t.readLog = s.readLog ++ [0x00111A02, 0x00211A06])

/-! ### Registers -/

/-- 20_memory.md R43, R49: a write of the index of a field register, in any PHASE, sets that field of the state and
nothing else, and a read of the index gives the field zero-extended; so a write stores the word under the register's mask,
which a read gives back, no other register reads differently and no frame in flight changes. -/
def Obligations.FieldWritesAreMasked : Prop :=
  (∀ (v : Word) (s : State),
    hostWrite 0x05 v s = .next { s with fAddr := v.setWidth 8 } ∧
    hostWrite 0x06 v s = .next { s with fNewAddr := v.setWidth 8 } ∧
    hostWrite 0x07 v s = .next { s with fKind := v.setWidth 8 } ∧
    hostWrite 0x08 v s = .next { s with fValue := v.setWidth 16 } ∧
    hostWrite 0x09 v s = .next { s with fMaxI := v.setWidth 16 } ∧
    hostWrite 0x0A v s = .next { s with fMaxP := v.setWidth 16 } ∧
    hostWrite 0x0B v s = .next { s with fState := v.setWidth 2 } ∧
    hostWrite 0x0C v s = .next { s with fCurrent := v.setWidth 16 } ∧
    hostWrite 0x0D v s = .next { s with fVoltage := v } ∧
    hostWrite 0x0E v s = .next { s with fPower := v.setWidth 16 } ∧
    hostWrite 0x0F v s = .next { s with fRes := v.setWidth 16 } ∧
    hostWrite 0x10 v s = .next { s with fGStatus := v.setWidth 6 }) ∧
  (∀ s : State,
    readIndex 0x05 s = s.fAddr.setWidth 32 ∧ readIndex 0x06 s = s.fNewAddr.setWidth 32 ∧
    readIndex 0x07 s = s.fKind.setWidth 32 ∧ readIndex 0x08 s = s.fValue.setWidth 32 ∧
    readIndex 0x09 s = s.fMaxI.setWidth 32 ∧ readIndex 0x0A s = s.fMaxP.setWidth 32 ∧
    readIndex 0x0B s = s.fState.setWidth 32 ∧ readIndex 0x0C s = s.fCurrent.setWidth 32 ∧
    readIndex 0x0D s = s.fVoltage ∧ readIndex 0x0E s = s.fPower.setWidth 32 ∧
    readIndex 0x0F s = s.fRes.setWidth 32 ∧ readIndex 0x10 s = s.fGStatus.setWidth 32) ∧
  ∀ (r : Reg) (m v : Word) (s : State), (r, m) ∈ fieldMasks →
    ∃ t, hostWrite (regIndex r) v s = .next t ∧ readIndex (regIndex r) t = v &&& m ∧
      (∀ r', r' ≠ r → readReg r' t = readReg r' s) ∧
      t.phase = s.phase ∧ t.fbuf = s.fbuf ∧ t.acc = s.acc ∧ t.cnt = s.cnt ∧ OutsideKept s t

/-- 20_memory.md R51: indexes 0x26 to 0x3F read 0 and ignore writes, in every state. -/
def Obligations.ReservedIndexesReadZeroAndIgnoreWrites : Prop :=
  ∀ (idx : RegIndex) (v : Word) (s : State), 0x26 ≤ idx.toNat →
    readIndex idx s = 0 ∧ hostWrite idx v s = .next s

/-- 20_memory.md R43, R53: a write of a read-only register has no effect. -/
def Obligations.ReadOnlyRegistersIgnoreWrites : Prop :=
  ∀ (r : Reg) (v : Word) (s : State), r ∈ readOnlyRegs → hostWrite (regIndex r) v s = .next s

/-- 20_memory.md R52: a host read is enabled in every state, answers the register's value, and changes nothing else
(the record of the values read is the model's own field, log 1). -/
def Obligations.HostReadOnlyRecordsTheValue : Prop :=
  ∀ (s : State) (ts : List Agent) (idx : RegIndex) (h : List HostOp),
    s.turns = .host :: ts → s.host = .rd idx :: h →
    step s = .next { s with turns := ts, host := h, readLog := s.readLog ++ [readIndex idx s] }

/-- 20_memory.md R46, R47, R48: the STATUS, ERRF and ACC registers, bit by bit. -/
def Obligations.StatusErrfAndAccRegisters : Prop :=
  ∀ s : State,
    (let w := readIndex 0x02 s
     (w.getLsbD 0 = decide (s.phase ≠ .idle)) ∧ w.getLsbD 1 = s.done ∧ w.getLsbD 2 = s.dvalid ∧ w.getLsbD 3 = s.ovr ∧
     w.extractLsb' 4 4 = s.err ∧ w.extractLsb' 8 5 = s.cnt ∧ w.extractLsb' 13 3 = 0 ∧
     w.extractLsb' 16 8 = s.lastOp ∧ w.extractLsb' 24 8 = 0) ∧
    (readIndex 0x03 s).toNat = s.errf.toNat ∧ (readIndex 0x04 s).toNat = s.acc.toNat

/-- 20_memory.md R50: FBUF0 to FBUF5 each pack four bytes of FBUF, the lowest offset in the low bits, and FBUF6 packs
bytes 24 and 25 with bits 31:16 zero. -/
def Obligations.FbufRegistersPackTheFrame : Prop :=
  ∀ s : State,
    (∀ k < 6, ∀ j < 4,
      (readIndex (BitVec.ofNat 6 (0x11 + k)) s).extractLsb' (8 * j) 8 = byteAt s.fbuf (4 * k + j)) ∧
    (readIndex 0x17 s).extractLsb' 0 8 = byteAt s.fbuf 24 ∧ (readIndex 0x17 s).extractLsb' 8 8 = byteAt s.fbuf 25 ∧
    (readIndex 0x17 s).extractLsb' 16 16 = 0

/-- 42_decode.md R108: every view register, as a function of FBUF. -/
def Obligations.ViewsAreFunctionsOfFbuf : Prop :=
  ∀ s : State,
    (let w := readIndex 0x18 s
     w.extractLsb' 0 8 = byteAt s.fbuf 0 ∧ w.extractLsb' 8 8 = byteAt s.fbuf 1 ∧
     w.extractLsb' 16 8 = byteAt s.fbuf 2 ∧ w.extractLsb' 24 8 = byteAt s.fbuf 25) ∧
    (readIndex 0x19 s).toNat = memRead s.fbuf 3 2 ∧ (readIndex 0x1A s).toNat = memRead s.fbuf 5 4 ∧
    (readIndex 0x1B s).toNat = memRead s.fbuf 9 2 ∧ (readIndex 0x1C s).toNat = memRead s.fbuf 11 2 ∧
    (readIndex 0x1D s).toNat = memRead s.fbuf 13 2 ∧ (readIndex 0x1E s).toNat = memRead s.fbuf 15 2 ∧
    (readIndex 0x1F s).toNat = (byteAt s.fbuf 17).toNat % 64 ∧
    (readIndex 0x20 s).toNat = memRead s.fbuf 3 2 ∧ (readIndex 0x21 s).toNat = memRead s.fbuf 5 2 ∧
    (readIndex 0x22 s).toNat = (byteAt s.fbuf 7).toNat ∧ (readIndex 0x23 s).toNat = (byteAt s.fbuf 8).toNat ∧
    (readIndex 0x24 s).toNat = memRead s.fbuf 9 2 ∧ (readIndex 0x25 s).toNat = (byteAt s.fbuf 3).toNat % 4

/-- 30_encoding.md R84: each turn of `wait` reads STATUS once (one read at each host turn is the model's form of the loop,
log 12); the loop ends where bit 0 reads 0. -/
def Obligations.WaitPollsStatusUntilNotBusy : Prop :=
  ∀ (s : State) (ts : List Agent) (h : List HostOp), s.turns = .host :: ts → s.host = .wait :: h →
    (s.phase ≠ .idle → step s = .next { s with turns := ts, readLog := s.readLog ++ [readIndex 0x02 s] }) ∧
    (s.phase = .idle → step s = .next { s with turns := ts, host := h, readLog := s.readLog ++ [readIndex 0x02 s] })

/-- 20_memory.md R43; 30_encoding.md R83, R84, R86, R87: the index of every register, and the host transactions of the lines
and pseudo-instructions, each command's word written out (`csum` is CsumLineLeavesTheChecksumInAcc). -/
def Obligations.LinesStandForTheirTransactions : Prop :=
  [Reg.ctrl, .cmd, .status, .errf, .acc, .fAddr, .fNewAddr, .fKind, .fValue, .fMaxI, .fMaxP, .fState, .fCurrent, .fVoltage,
    .fPower, .fRes, .fGStatus, .fbuf0, .fbuf1, .fbuf2, .fbuf3, .fbuf4, .fbuf5, .fbuf6, .dHdr, .dgCurrent, .dgVoltage,
    .dgPower, .dgMaxI, .dgMaxP, .dgRes, .dgFlags, .dsMaxI, .dsMaxP, .dsNewAddr, .dsKind, .dsValue, .dtState].map regIndex
      = (List.range 0x26).map (BitVec.ofNat 6) ∧
  (∀ r, assembleLine (.rd r) = [.rd (regIndex r)]) ∧
  (∀ r imm, imm < 2 ^ 32 → ∃ v : Word, v.toNat = imm ∧ assembleLine (.wr r imm) = [.wr (regIndex r) v]) ∧
  assembleLine (.cmd .csumClr) = [.wr 0x01 0x00000001] ∧
  (∀ b : Byte, ∃ v : Word, v.toNat = b.toNat * 256 + 2 ∧ assembleLine (.cmd (.csumAdd b)) = [.wr 0x01 v]) ∧
  assembleLine (.cmd .encSet) = [.wr 0x01 0x00000010] ∧
  assembleLine (.cmd .encGetReq) = [.wr 0x01 0x00000011] ∧
  assembleLine (.cmd .encState) = [.wr 0x01 0x00000012] ∧
  assembleLine (.cmd .encGetResp) = [.wr 0x01 0x00000013] ∧
  assembleLine (.cmd .decSet) = [.wr 0x01 0x00000020] ∧
  assembleLine (.cmd .decGet) = [.wr 0x01 0x00000021] ∧
  assembleLine (.cmd .decState) = [.wr 0x01 0x00000022] ∧
  assembleLine .srst = [.wr 0x00 0x00000001] ∧
  (∀ text, assembleLine (.comment text) = []) ∧
  assembleLine .wait = [.wait] ∧
  assembleLine .query = [.wr 0x01 0x00000011, .wait, .wr 0x01 0x00000021, .wait] ∧
  (∀ kind value, kind < 2 ^ 32 → value < 2 ^ 32 → ∃ k v : Word, k.toNat = kind ∧ v.toNat = value ∧
    assembleLine (.setq kind value) = [.wr 0x07 k, .wr 0x08 v, .wr 0x01 0x00000010, .wait]) ∧
  ∀ remote enabled : Bool, assembleLine (.setstate remote enabled) =
    [.wr 0x0B (BitVec.ofNat 32 (2 * remote.toNat + enabled.toNat)), .wr 0x01 0x00000012, .wait]

/-! ### Errors and reset -/

/-- 60_exceptions.md R117: ERR's code is the lowest whose flag is set, and 0 where none is. -/
def Obligations.PriorityIsTheLowestFlag : Prop :=
  ∀ f : BitVec 9,
    (f = 0 → priority f = 0) ∧
    (f ≠ 0 → 1 ≤ (priority f).toNat ∧ (priority f).toNat ≤ 9 ∧ f.getLsbD ((priority f).toNat - 1) = true ∧
      ∀ n, 1 ≤ n → n < (priority f).toNat → f.getLsbD (n - 1) = false)

/-- 10_state.md R41: the state after reset; every byte of FBUF and every named register reads 0. -/
def Obligations.ResetStateIsAllZero : Prop :=
  State.reset.phase = .idle ∧ State.reset.lastOp = 0 ∧ State.reset.cnt = 0 ∧ State.reset.acc = 0 ∧
  (∀ a, byteAt State.reset.fbuf a = 0) ∧ State.reset.done = false ∧ State.reset.dvalid = false ∧
  State.reset.ovr = false ∧ State.reset.err = 0 ∧ State.reset.errf = 0 ∧
  ∀ r : Reg, readReg r State.reset = 0

/-- 70_reset_and_hazards.md R129: reset, at any step and in any PHASE, puts every element of the SFC at its reset value;
the TX trace and what else is outside the SFC stay (for all but the TX trace this is the model's reading, log 13). -/
def Obligations.HardwareResetRestoresResetState : Prop :=
  ∀ (s : State) (ts : List Agent), s.turns = .resetInput :: ts →
    step s = .next { State.reset with
      host := s.host, sink := s.sink, source := s.source, turns := ts, txTrace := s.txTrace, readLog := s.readLog }

/-- 20_memory.md R44, R45; 70_reset_and_hazards.md R129, R130: a write of CTRL with bit 0 = 1 is the soft reset, in any
PHASE, and with bit 0 = 0 has no effect; CTRL and CMD read 0 in every state. What is outside the SFC stays (for all but
the TX trace this is the model's reading, log 13). -/
def Obligations.CtrlWriteIsTheSoftReset : Prop :=
  ∀ (v : Word) (s : State),
    (v.getLsbD 0 = true → hostWrite 0x00 v s = .next { State.reset with
      host := s.host, sink := s.sink, source := s.source, turns := s.turns, txTrace := s.txTrace
      readLog := s.readLog }) ∧
    (v.getLsbD 0 = false → hostWrite 0x00 v s = .next s) ∧ readIndex 0x00 s = 0 ∧ readIndex 0x01 s = 0

/-! ### The whole machine -/

/-- The reset state is legal. -/
def Obligations.ResetStateIsLegal : Prop := State.reset.Legal

/-- Every step of every agent keeps the state legal: FBUF canonical, CNT at most 26, ERR the highest-priority flag, only
possible flag combinations, DVALID only for a checked frame, ACC the running sum of the bytes passed. -/
def Obligations.EveryStepKeepsTheStateLegal : Prop :=
  ∀ s t : State, s.Legal → step s = .next t → t.Legal

/-- In a legal state every step answers a next state: errors are recorded, never a stop (60_exceptions.md R119). -/
def Obligations.LegalStatesNeverStop : Prop := ∀ s : State, s.Legal → ∃ t, step s = .next t

/-- 10_state.md R24: OVR, once set, is cleared by reset or soft reset alone. -/
def Obligations.OnlyResetClearsOverrun : Prop :=
  ∀ s t : State, step s = .next t → s.ovr = true → t.ovr = false →
    (∃ ts, s.turns = .resetInput :: ts) ∨
    ∃ ts v h, s.turns = .host :: ts ∧ s.host = .wr 0x00 v :: h ∧ v.getLsbD 0 = true

/-- 10_state.md R13: only host writes of the field registers, and reset, change them; no command and no stream step. -/
def Obligations.OnlyFieldWritesAndResetChangeFields : Prop :=
  ∀ s t : State, step s = .next t → ¬ FieldsKept s t →
    (∃ ts, s.turns = .resetInput :: ts) ∨
    ∃ ts idx v h, s.turns = .host :: ts ∧ s.host = .wr idx v :: h ∧
      ((idx = 0x00 ∧ v.getLsbD 0 = true) ∨ (0x05 ≤ idx.toNat ∧ idx.toNat ≤ 0x10))

/-- 10_state.md R15: PHASE leaves IDLE only by an accepted encoder with valid operands (to TX) or decoder (to RX), and
comes back to IDLE only by a completion, which sets DONE, or by reset; TX and RX never follow each other directly. -/
def Obligations.PhaseMovesOnlyByCommandsCompletionAndReset : Prop :=
  ∀ s t : State, step s = .next t → s.phase ≠ t.phase →
    (s.phase = .idle ∧ ∃ ts v h, s.turns = .host :: ts ∧ s.host = .wr 0x01 v :: h ∧
      ((t.phase = .tx ∧ ∃ i, decode v = .instr i ∧ isEncoderOp (opcodeOf i) = true ∧ OperandsValid i s) ∨
       (t.phase = .rx ∧ ∃ i, decode v = .instr i ∧ isDecoderOp (opcodeOf i) = true))) ∨
    (t.phase = .idle ∧
      ((∃ ts, s.turns = .txSink :: ts ∧ s.phase = .tx ∧ t.done = true) ∨
       (∃ ts, s.turns = .rxSource :: ts ∧ s.phase = .rx ∧ t.done = true) ∨
       (∃ ts, s.turns = .resetInput :: ts) ∨
       ∃ ts v h, s.turns = .host :: ts ∧ s.host = .wr 0x00 v :: h ∧ v.getLsbD 0 = true))

/-- 10_state.md R20: ACC is changed only by an accepted CSUM.CLR, CSUM.ADD, encoder with valid operands or decoder, by a
byte taken or delivered at CNT < 25, and by reset. -/
def Obligations.AccChangesOnlyAsListed : Prop :=
  ∀ s t : State, step s = .next t → t.acc ≠ s.acc →
    (∃ ts v h i, s.turns = .host :: ts ∧ s.host = .wr 0x01 v :: h ∧ s.phase = .idle ∧ decode v = .instr i ∧
      (isEncoderOp (opcodeOf i) = true → OperandsValid i s)) ∨
    (∃ ts k, s.turns = .txSink :: ts ∧ s.phase = .tx ∧ s.sink = .take :: k ∧ s.cnt.toNat < 25) ∨
    (∃ ts b k, s.turns = .rxSource :: ts ∧ s.phase = .rx ∧ s.source = .deliver b :: k ∧ s.cnt.toNat < 25) ∨
    (∃ ts, s.turns = .resetInput :: ts) ∨
    ∃ ts v h, s.turns = .host :: ts ∧ s.host = .wr 0x00 v :: h ∧ v.getLsbD 0 = true

/-- 10_state.md R21: FBUF is changed only by an accepted encoder with valid operands or decoder, by the TAKE of the
checksum byte, by a DELIVER, and by reset; no other host write reaches it. -/
def Obligations.FbufChangesOnlyAsListed : Prop :=
  ∀ s t : State, step s = .next t → t.fbuf ≠ s.fbuf →
    (∃ ts v h i, s.turns = .host :: ts ∧ s.host = .wr 0x01 v :: h ∧ s.phase = .idle ∧ decode v = .instr i ∧
      ((isEncoderOp (opcodeOf i) = true ∧ OperandsValid i s) ∨ isDecoderOp (opcodeOf i) = true)) ∨
    (∃ ts k, s.turns = .txSink :: ts ∧ s.phase = .tx ∧ s.sink = .take :: k ∧ s.cnt.toNat = 25) ∨
    (∃ ts b k, s.turns = .rxSource :: ts ∧ s.phase = .rx ∧ s.source = .deliver b :: k) ∨
    (∃ ts, s.turns = .resetInput :: ts) ∨
    ∃ ts v h, s.turns = .host :: ts ∧ s.host = .wr 0x00 v :: h ∧ v.getLsbD 0 = true

/-- 20_memory.md R60 to R62: a turn of a stream side whose port is not ready changes nothing, and its answers stay for
later (the model's choice, log 2). -/
def Obligations.StreamSidesWaitForTheirPhase : Prop :=
  ∀ (s : State) (ts : List Agent),
    (s.turns = .txSink :: ts ∧ s.phase ≠ .tx) ∨ (s.turns = .rxSource :: ts ∧ s.phase ≠ .rx) →
    step s = .next { s with turns := ts }

/-- 20_memory.md R63, 70_reset_and_hazards.md R141: whatever the answers are, a stream side that answers at each of 26
turns ends the command in progress within them. -/
def Obligations.AnsweredFramesEndWithin26Steps : Prop :=
  ∀ (s : State) (ts : List Agent), s.Legal →
    (s.phase = .tx → s.turns = List.replicate 26 .txSink ++ ts → 26 ≤ s.sink.length →
      ∃ n t, n ≤ 26 ∧ runSteps n s = .next t ∧ t.phase = .idle ∧ t.done = true) ∧
    (s.phase = .rx → s.turns = List.replicate 26 .rxSource ++ ts → 26 ≤ s.source.length →
      ∃ n t, n ≤ 26 ∧ runSteps n s = .next t ∧ t.phase = .idle ∧ t.done = true)
end

