-- ==== Sys2Proof/Laws/Decode.lean ====
section
/-!
SUPPORT. The fields of a command word, and the register index map.
-/

namespace Sys2Proof

@[simp] theorem opcField_commandWord (h : Half) (d o : Byte) : opcField (commandWord h d o) = o := by
  change (h ++ d ++ o : BitVec (16 + 8 + 8)).extractLsb' 0 8 = o
  apply BitVec.eq_of_getLsbD_eq
  intro i hi
  simp only [BitVec.getLsbD_extractLsb', BitVec.getLsbD_append]
  simp [hi]

@[simp] theorem dataField_commandWord (h : Half) (d o : Byte) : dataField (commandWord h d o) = d := by
  change (h ++ d ++ o : BitVec (16 + 8 + 8)).extractLsb' 8 8 = d
  apply BitVec.eq_of_getLsbD_eq
  intro i hi
  simp only [BitVec.getLsbD_extractLsb', BitVec.getLsbD_append]
  simp [hi]

/-- Every word is the command word of its own fields: bits 31:16, DATA and OPC leave no bit out (30_encoding.md R68). -/
theorem commandWord_fields (v : Word) : commandWord (v.extractLsb' 16 16) (dataField v) (opcField v) = v := by
  apply BitVec.eq_of_getLsbD_eq
  intro i hi
  change (v.extractLsb' 16 16 ++ v.extractLsb' 8 8 ++ v.extractLsb' 0 8 : BitVec (16 + 8 + 8)).getLsbD i = _
  simp only [BitVec.getLsbD_append, BitVec.getLsbD_extractLsb']
  by_cases h8 : i < 8
  · simp [h8]
  · by_cases h16 : i < 16
    · simp [h8, show i - 8 < 8 by omega, show 8 + (i - 8) = i by omega]
    · simp [h8, show ¬ i - 8 < 8 by omega, show 16 + (i - 8 - 8) = i by omega, show i - 8 - 8 < 16 by omega]

@[simp] theorem regAt_regIndex (r : Reg) : regAt (regIndex r) = some r := by
  cases r <;> rfl

/-- The named registers take the indexes 0x00 to 0x25, and the rest is reserved (20_memory.md R43, R51). -/
theorem regAt_eq_none_iff (idx : RegIndex) : regAt idx = none ↔ 0x26 ≤ idx.toNat := by
  simp [regAt, namedRegs]

theorem regIndex_of_regAt {idx : RegIndex} {r : Reg} (h : regAt idx = some r) : regIndex r = idx := by
  revert r
  revert idx
  decide

end Sys2Proof
end

