-- ==== Sys2Proof/Laws/Memory.lean ====
section
/-!
SUPPORT. The frame buffer: a read after a write, a write elsewhere, the canonical form, and MemRead after MemWrite
(00_scope.md R9).
-/

namespace Sys2Proof.Machine

@[simp] theorem byteAt_nil (a : Nat) : byteAt [] a = 0 := rfl

@[simp] theorem byteAt_cons (k a : Nat) (b : Byte) (m : Memory) :
    byteAt ((k, b) :: m) a = if k = a then b else byteAt m a := rfl

theorem byteAt_eraseByte (m : Memory) (a a' : Nat) :
    byteAt (eraseByte m a) a' = if a = a' then 0 else byteAt m a' := by
  induction m with
  | nil => simp [eraseByte]
  | cons c m ih =>
    obtain ⟨k, b⟩ := c
    simp only [eraseByte, List.filter_cons] at ih ⊢
    by_cases hk : k = a
    · subst hk; simp only [bne_self_eq_false, Bool.false_eq_true, if_false, ih, byteAt_cons]; split <;> rfl
    · simp only [bne_iff_ne, ne_eq, hk, not_false_eq_true, if_true, byteAt_cons, ih]
      by_cases ha : a = a'
      · subst ha; simp [hk]
      · simp [ha]

theorem byteAt_insertByte (m : Memory) (a a' : Nat) (b : Byte) (h : byteAt m a = 0 ∧ ∀ c ∈ m, c.1 ≠ a) :
    byteAt (insertByte a b m) a' = if a = a' then b else byteAt m a' := by
  induction m with
  | nil => simp [insertByte]
  | cons c m ih =>
    obtain ⟨k, b'⟩ := c
    have hk : k ≠ a := h.2 (k, b') (by simp)
    have hm : byteAt m a = 0 ∧ ∀ c ∈ m, c.1 ≠ a :=
      ⟨by simpa [hk] using h.1, fun c hc => h.2 c (List.mem_cons_of_mem _ hc)⟩
    simp only [insertByte]
    split
    · simp
    · rw [byteAt_cons, ih hm, byteAt_cons]
      by_cases ha : a = a'
      · subst ha; simp [hk]
      · simp [ha]

theorem mem_eraseByte (m : Memory) (a : Nat) (c : Host.Cell) : c ∈ eraseByte m a ↔ c ∈ m ∧ c.1 ≠ a := by
  simp [eraseByte]

/-- A byte read after a write: the byte written at its offset, the old byte at every other. -/
theorem byteAt_setByte (m : Memory) (a a' : Nat) (b : Byte) :
    byteAt (setByte m a b) a' = if a = a' then b else byteAt m a' := by
  unfold setByte
  split
  · next h => subst h; exact byteAt_eraseByte m a a'
  · rw [byteAt_insertByte]
    · rw [byteAt_eraseByte]; split <;> rfl
    · exact ⟨by rw [byteAt_eraseByte]; simp, fun c hc => ((mem_eraseByte m a c).1 hc).2⟩

@[simp] theorem byteAt_setByte_same (m : Memory) (a : Nat) (b : Byte) : byteAt (setByte m a b) a = b := by
  simp [byteAt_setByte]

theorem byteAt_setByte_other (m : Memory) {a a' : Nat} (b : Byte) (h : a ≠ a') :
    byteAt (setByte m a b) a' = byteAt m a' := by
  simp [byteAt_setByte, h]

/-- The canonical form as a proposition. -/
theorem wf_iff (m : Memory) :
    m.wf = true ↔ m.Pairwise (fun c d => c.1 < d.1) ∧ ∀ c ∈ m, c.2 ≠ 0 ∧ c.1 < Config.frameLen := by
  simp only [Memory.wf, Bool.and_eq_true, decide_eq_true_eq, List.all_eq_true, bne_iff_ne, ne_eq]

theorem wf_nil : Memory.wf [] = true := rfl

theorem wf_eraseByte {m : Memory} (h : m.wf = true) (a : Nat) : (eraseByte m a).wf = true := by
  rw [wf_iff] at h ⊢
  exact ⟨h.1.filter _, fun c hc => h.2 c ((mem_eraseByte m a c).1 hc).1⟩

theorem mem_insertByte (m : Memory) (a : Nat) (b : Byte) (c : Host.Cell) :
    c ∈ insertByte a b m ↔ c = (a, b) ∨ c ∈ m := by
  induction m with
  | nil => simp [insertByte]
  | cons d m ih =>
    obtain ⟨k, b'⟩ := d
    simp only [insertByte]
    split
    · simp
    · simp only [List.mem_cons, ih]; tauto

theorem pairwise_insertByte {m : Memory} (h : m.Pairwise (fun c d => c.1 < d.1)) {a : Nat} (b : Byte)
    (hm : ∀ c ∈ m, c.1 ≠ a) : (insertByte a b m).Pairwise (fun c d => c.1 < d.1) := by
  induction m with
  | nil => simp [insertByte]
  | cons d m ih =>
    obtain ⟨k, b'⟩ := d
    have hp := List.pairwise_cons.1 h
    have hk : k ≠ a := hm (k, b') (by simp)
    simp only [insertByte]
    split
    · next hlt =>
      refine List.pairwise_cons.2 ⟨fun c hc => ?_, h⟩
      rcases List.mem_cons.1 hc with rfl | hc
      · exact hlt
      · exact lt_trans hlt (hp.1 c hc)
    · next hnl =>
      refine List.pairwise_cons.2 ⟨fun c hc => ?_, ih hp.2 (fun c hc => hm c (List.mem_cons_of_mem _ hc))⟩
      rcases (mem_insertByte m a b c).1 hc with rfl | hc
      · show k < a
        omega
      · exact hp.1 c hc

theorem wf_insertByte {m : Memory} (h : m.wf = true) {a : Nat} {b : Byte} (ha : a < Config.frameLen) (hb : b ≠ 0)
    (hm : ∀ c ∈ m, c.1 ≠ a) : (insertByte a b m).wf = true := by
  rw [wf_iff] at h ⊢
  refine ⟨pairwise_insertByte h.1 b hm, fun c hc => ?_⟩
  rcases (mem_insertByte m a b c).1 hc with rfl | hc
  · exact ⟨hb, ha⟩
  · exact h.2 c hc

/-- A byte write inside FBUF keeps the canonical form. -/
theorem wf_setByte {m : Memory} (h : m.wf = true) {a : Nat} (b : Byte) (ha : a < Config.frameLen) :
    (setByte m a b).wf = true := by
  unfold setByte
  split
  · exact wf_eraseByte h a
  · next hb => exact wf_insertByte (wf_eraseByte h a) ha hb (fun c hc => ((mem_eraseByte m a c).1 hc).2)

/-- A canonical memory lists no offset past 25, so it reads 0x00 there. -/
theorem byteAt_past_frame {m : Memory} (h : m.wf = true) {a : Nat} (ha : Config.frameLen ≤ a) : byteAt m a = 0 := by
  replace h := ((wf_iff m).1 h).2
  induction m with
  | nil => rfl
  | cons c m ih =>
    obtain ⟨k, b⟩ := c
    have : k < Config.frameLen := (h (k, b) (by simp)).2
    rw [byteAt_cons, if_neg (by omega)]
    exact ih (fun c hc => h c (List.mem_cons_of_mem _ hc))

theorem byteAt_memWrite (n : Nat) (m : Memory) (a v a' : Nat) :
    byteAt (memWrite m a n v) a' =
      if a ≤ a' ∧ a' < a + n then BitVec.ofNat 8 (v / 256 ^ (a' - a)) else byteAt m a' := by
  induction n generalizing m a v with
  | zero => simp [memWrite]
  | succ n ih =>
    rw [memWrite, ih, byteAt_setByte]
    by_cases h1 : a + 1 ≤ a' ∧ a' < a + 1 + n
    · rw [if_pos h1, if_pos (by omega), show a' - a = (a' - (a + 1)) + 1 by omega, pow_succ', Nat.div_div_eq_div_mul]
    · rw [if_neg h1]
      by_cases h2 : a = a'
      · subst h2; simp
      · rw [if_neg h2, if_neg (by omega)]

theorem byteAt_zeroFill (n : Nat) (m : Memory) (a a' : Nat) :
    byteAt (zeroFill m a n) a' = if a ≤ a' ∧ a' < a + n then 0 else byteAt m a' := by
  induction n generalizing m a with
  | zero => simp [zeroFill]
  | succ n ih =>
    rw [zeroFill, ih, byteAt_setByte]
    by_cases h1 : a + 1 ≤ a' ∧ a' < a + 1 + n
    · rw [if_pos h1, if_pos (by omega)]
    · rw [if_neg h1]
      by_cases h2 : a = a'
      · subst h2; simp
      · rw [if_neg h2, if_neg (by omega)]

/-- MemWrite inside FBUF keeps the canonical form. -/
theorem wf_memWrite (n : Nat) {m : Memory} (h : m.wf = true) (a v : Nat) (ha : a + n ≤ Config.frameLen) :
    (memWrite m a n v).wf = true := by
  induction n generalizing m a v with
  | zero => exact h
  | succ n ih => exact ih (wf_setByte h _ (by omega)) (a + 1) (v / 256) (by omega)

/-- Zero padding inside FBUF keeps the canonical form. -/
theorem wf_zeroFill (n : Nat) {m : Memory} (h : m.wf = true) (a : Nat) (ha : a + n ≤ Config.frameLen) :
    (zeroFill m a n).wf = true := by
  induction n generalizing m a with
  | zero => exact h
  | succ n ih => exact ih (wf_setByte h _ (by omega)) (a + 1) (by omega)

theorem memRead_lt (n : Nat) (m : Memory) (a : Nat) : memRead m a n < 256 ^ n := by
  induction n generalizing a with
  | zero => simp [memRead]
  | succ n ih =>
    have hb := (byteAt m a).isLt
    have := ih (a + 1)
    rw [memRead, pow_succ']
    omega

/-- MemRead depends on the bytes it reads alone. -/
theorem memRead_congr (n : Nat) {m m' : Memory} (a : Nat) (h : ∀ i, a ≤ i → i < a + n → byteAt m i = byteAt m' i) :
    memRead m a n = memRead m' a n := by
  induction n generalizing a with
  | zero => rfl
  | succ n ih =>
    rw [memRead, memRead, h a (le_refl _) (by omega), ih (a + 1) (fun i h1 h2 => h i (by omega) (by omega))]

/-- MemRead(a, n) inverts MemWrite(a, n, v) for v < 256^n (42_decode.md R113). -/
theorem memRead_memWrite (n : Nat) (m : Memory) (a v : Nat) (hv : v < 256 ^ n) :
    memRead (memWrite m a n v) a n = v := by
  induction n generalizing m a v with
  | zero => simp only [memRead, pow_zero] at *; omega
  | succ n ih =>
    rw [memRead, byteAt_memWrite, if_pos (by omega), memWrite, ih _ _ _ (by rw [pow_succ'] at hv; omega)]
    simp only [Nat.sub_self, pow_zero, Nat.div_one, BitVec.toNat_ofNat]
    omega

/-- Below every listed offset a memory reads 0x00. -/
theorem byteAt_below {m : Memory} {a : Nat} (hm : ∀ c ∈ m, a < c.1) : byteAt m a = 0 := by
  induction m with
  | nil => rfl
  | cons c m ih =>
    obtain ⟨k, b⟩ := c
    have : a < k := hm (k, b) (by simp)
    rw [byteAt_cons, if_neg (by omega), ih (fun c hc => hm c (List.mem_cons_of_mem _ hc))]

/-- Canonical memories that read the same are the same. -/
theorem memory_ext {m m' : Memory} (h : m.wf = true) (h' : m'.wf = true) (heq : ∀ a, byteAt m a = byteAt m' a) :
    m = m' := by
  rw [wf_iff] at h h'
  induction m generalizing m' with
  | nil =>
    cases m' with
    | nil => rfl
    | cons c m' =>
      obtain ⟨k, b⟩ := c
      exact absurd (by simpa using (heq k).symm) (h'.2 (k, b) (by simp)).1
  | cons c m ih =>
    obtain ⟨k, b⟩ := c
    have hp := List.pairwise_cons.1 h.1
    have hb : b ≠ 0 := (h.2 (k, b) (by simp)).1
    cases m' with
    | nil => exact absurd (by simpa using heq k) hb
    | cons c' m' =>
      obtain ⟨k', b'⟩ := c'
      have hp' := List.pairwise_cons.1 h'.1
      have hb' : b' ≠ 0 := (h'.2 (k', b') (by simp)).1
      have hk : k = k' := by
        rcases lt_trichotomy k k' with hlt | heq' | hgt
        · have : byteAt ((k', b') :: m') k = 0 := byteAt_below (fun c hc => by
            rcases List.mem_cons.1 hc with rfl | hc
            · exact hlt
            · exact lt_trans hlt (hp'.1 c hc))
          exact absurd (by simpa [this] using heq k) hb
        · exact heq'
        · have : byteAt ((k, b) :: m) k' = 0 := byteAt_below (fun c hc => by
            rcases List.mem_cons.1 hc with rfl | hc
            · exact hgt
            · exact lt_trans hgt (hp.1 c hc))
          exact absurd (by simpa [this] using (heq k').symm) hb'
      subst hk
      have hbb : b = b' := by simpa using heq k
      subst hbb
      congr 1
      refine ih ⟨hp.2, fun c hc => h.2 c (List.mem_cons_of_mem _ hc)⟩
        ⟨hp'.2, fun c hc => h'.2 c (List.mem_cons_of_mem _ hc)⟩ (fun a => ?_)
      by_cases ha : k = a
      · subst ha
        rw [byteAt_below (fun c hc => hp.1 c hc), byteAt_below (fun c hc => hp'.1 c hc)]
      · simpa [ha] using heq a

end Sys2Proof.Machine
end

