-- ==== Sys2Proof/Laws/State.lean ====
section
/-!
SUPPORT. One lemma per field for each named update of the state, so that no proof unfolds a record update.
-/

namespace Sys2Proof.Machine

variable (s : State)

@[simp] theorem accept_phase (opc : Byte) : (s.accept opc).phase = s.phase := rfl
@[simp] theorem accept_lastOp (opc : Byte) : (s.accept opc).lastOp = opc := rfl
@[simp] theorem accept_cnt (opc : Byte) : (s.accept opc).cnt = s.cnt := rfl
@[simp] theorem accept_acc (opc : Byte) : (s.accept opc).acc = s.acc := rfl
@[simp] theorem accept_fbuf (opc : Byte) : (s.accept opc).fbuf = s.fbuf := rfl
@[simp] theorem accept_done (opc : Byte) : (s.accept opc).done = false := rfl
@[simp] theorem accept_dvalid (opc : Byte) : (s.accept opc).dvalid = false := rfl
@[simp] theorem accept_ovr (opc : Byte) : (s.accept opc).ovr = s.ovr := rfl
@[simp] theorem accept_err (opc : Byte) : (s.accept opc).err = 0 := rfl
@[simp] theorem accept_errf (opc : Byte) : (s.accept opc).errf = 0 := rfl
@[simp] theorem accept_fAddr (opc : Byte) : (s.accept opc).fAddr = s.fAddr := rfl
@[simp] theorem accept_fNewAddr (opc : Byte) : (s.accept opc).fNewAddr = s.fNewAddr := rfl
@[simp] theorem accept_fKind (opc : Byte) : (s.accept opc).fKind = s.fKind := rfl
@[simp] theorem accept_fValue (opc : Byte) : (s.accept opc).fValue = s.fValue := rfl
@[simp] theorem accept_fMaxI (opc : Byte) : (s.accept opc).fMaxI = s.fMaxI := rfl
@[simp] theorem accept_fMaxP (opc : Byte) : (s.accept opc).fMaxP = s.fMaxP := rfl
@[simp] theorem accept_fState (opc : Byte) : (s.accept opc).fState = s.fState := rfl
@[simp] theorem accept_fCurrent (opc : Byte) : (s.accept opc).fCurrent = s.fCurrent := rfl
@[simp] theorem accept_fVoltage (opc : Byte) : (s.accept opc).fVoltage = s.fVoltage := rfl
@[simp] theorem accept_fPower (opc : Byte) : (s.accept opc).fPower = s.fPower := rfl
@[simp] theorem accept_fRes (opc : Byte) : (s.accept opc).fRes = s.fRes := rfl
@[simp] theorem accept_fGStatus (opc : Byte) : (s.accept opc).fGStatus = s.fGStatus := rfl
@[simp] theorem accept_host (opc : Byte) : (s.accept opc).host = s.host := rfl
@[simp] theorem accept_sink (opc : Byte) : (s.accept opc).sink = s.sink := rfl
@[simp] theorem accept_source (opc : Byte) : (s.accept opc).source = s.source := rfl
@[simp] theorem accept_turns (opc : Byte) : (s.accept opc).turns = s.turns := rfl
@[simp] theorem accept_txTrace (opc : Byte) : (s.accept opc).txTrace = s.txTrace := rfl
@[simp] theorem accept_readLog (opc : Byte) : (s.accept opc).readLog = s.readLog := rfl

@[simp] theorem dropCommand_phase : (s.dropCommand).phase = s.phase := rfl
@[simp] theorem dropCommand_lastOp : (s.dropCommand).lastOp = s.lastOp := rfl
@[simp] theorem dropCommand_cnt : (s.dropCommand).cnt = s.cnt := rfl
@[simp] theorem dropCommand_acc : (s.dropCommand).acc = s.acc := rfl
@[simp] theorem dropCommand_fbuf : (s.dropCommand).fbuf = s.fbuf := rfl
@[simp] theorem dropCommand_done : (s.dropCommand).done = s.done := rfl
@[simp] theorem dropCommand_dvalid : (s.dropCommand).dvalid = s.dvalid := rfl
@[simp] theorem dropCommand_ovr : (s.dropCommand).ovr = true := rfl
@[simp] theorem dropCommand_err : (s.dropCommand).err = s.err := rfl
@[simp] theorem dropCommand_errf : (s.dropCommand).errf = s.errf := rfl
@[simp] theorem dropCommand_fAddr : (s.dropCommand).fAddr = s.fAddr := rfl
@[simp] theorem dropCommand_fNewAddr : (s.dropCommand).fNewAddr = s.fNewAddr := rfl
@[simp] theorem dropCommand_fKind : (s.dropCommand).fKind = s.fKind := rfl
@[simp] theorem dropCommand_fValue : (s.dropCommand).fValue = s.fValue := rfl
@[simp] theorem dropCommand_fMaxI : (s.dropCommand).fMaxI = s.fMaxI := rfl
@[simp] theorem dropCommand_fMaxP : (s.dropCommand).fMaxP = s.fMaxP := rfl
@[simp] theorem dropCommand_fState : (s.dropCommand).fState = s.fState := rfl
@[simp] theorem dropCommand_fCurrent : (s.dropCommand).fCurrent = s.fCurrent := rfl
@[simp] theorem dropCommand_fVoltage : (s.dropCommand).fVoltage = s.fVoltage := rfl
@[simp] theorem dropCommand_fPower : (s.dropCommand).fPower = s.fPower := rfl
@[simp] theorem dropCommand_fRes : (s.dropCommand).fRes = s.fRes := rfl
@[simp] theorem dropCommand_fGStatus : (s.dropCommand).fGStatus = s.fGStatus := rfl
@[simp] theorem dropCommand_host : (s.dropCommand).host = s.host := rfl
@[simp] theorem dropCommand_sink : (s.dropCommand).sink = s.sink := rfl
@[simp] theorem dropCommand_source : (s.dropCommand).source = s.source := rfl
@[simp] theorem dropCommand_turns : (s.dropCommand).turns = s.turns := rfl
@[simp] theorem dropCommand_txTrace : (s.dropCommand).txTrace = s.txTrace := rfl
@[simp] theorem dropCommand_readLog : (s.dropCommand).readLog = s.readLog := rfl

@[simp] theorem raise_phase (e : ErrorCause) : (s.raise e).phase = s.phase := rfl
@[simp] theorem raise_lastOp (e : ErrorCause) : (s.raise e).lastOp = s.lastOp := rfl
@[simp] theorem raise_cnt (e : ErrorCause) : (s.raise e).cnt = s.cnt := rfl
@[simp] theorem raise_acc (e : ErrorCause) : (s.raise e).acc = s.acc := rfl
@[simp] theorem raise_fbuf (e : ErrorCause) : (s.raise e).fbuf = s.fbuf := rfl
@[simp] theorem raise_done (e : ErrorCause) : (s.raise e).done = s.done := rfl
@[simp] theorem raise_dvalid (e : ErrorCause) : (s.raise e).dvalid = s.dvalid := rfl
@[simp] theorem raise_ovr (e : ErrorCause) : (s.raise e).ovr = s.ovr := rfl
@[simp] theorem raise_err (e : ErrorCause) : (s.raise e).err = s.err := rfl
@[simp] theorem raise_errf (e : ErrorCause) : (s.raise e).errf = s.errf ||| errorFlag e := rfl
@[simp] theorem raise_fAddr (e : ErrorCause) : (s.raise e).fAddr = s.fAddr := rfl
@[simp] theorem raise_fNewAddr (e : ErrorCause) : (s.raise e).fNewAddr = s.fNewAddr := rfl
@[simp] theorem raise_fKind (e : ErrorCause) : (s.raise e).fKind = s.fKind := rfl
@[simp] theorem raise_fValue (e : ErrorCause) : (s.raise e).fValue = s.fValue := rfl
@[simp] theorem raise_fMaxI (e : ErrorCause) : (s.raise e).fMaxI = s.fMaxI := rfl
@[simp] theorem raise_fMaxP (e : ErrorCause) : (s.raise e).fMaxP = s.fMaxP := rfl
@[simp] theorem raise_fState (e : ErrorCause) : (s.raise e).fState = s.fState := rfl
@[simp] theorem raise_fCurrent (e : ErrorCause) : (s.raise e).fCurrent = s.fCurrent := rfl
@[simp] theorem raise_fVoltage (e : ErrorCause) : (s.raise e).fVoltage = s.fVoltage := rfl
@[simp] theorem raise_fPower (e : ErrorCause) : (s.raise e).fPower = s.fPower := rfl
@[simp] theorem raise_fRes (e : ErrorCause) : (s.raise e).fRes = s.fRes := rfl
@[simp] theorem raise_fGStatus (e : ErrorCause) : (s.raise e).fGStatus = s.fGStatus := rfl
@[simp] theorem raise_host (e : ErrorCause) : (s.raise e).host = s.host := rfl
@[simp] theorem raise_sink (e : ErrorCause) : (s.raise e).sink = s.sink := rfl
@[simp] theorem raise_source (e : ErrorCause) : (s.raise e).source = s.source := rfl
@[simp] theorem raise_turns (e : ErrorCause) : (s.raise e).turns = s.turns := rfl
@[simp] theorem raise_txTrace (e : ErrorCause) : (s.raise e).txTrace = s.txTrace := rfl
@[simp] theorem raise_readLog (e : ErrorCause) : (s.raise e).readLog = s.readLog := rfl

@[simp] theorem complete_phase (c : BitVec 4) : (s.complete c).phase = .idle := rfl
@[simp] theorem complete_lastOp (c : BitVec 4) : (s.complete c).lastOp = s.lastOp := rfl
@[simp] theorem complete_cnt (c : BitVec 4) : (s.complete c).cnt = s.cnt := rfl
@[simp] theorem complete_acc (c : BitVec 4) : (s.complete c).acc = s.acc := rfl
@[simp] theorem complete_fbuf (c : BitVec 4) : (s.complete c).fbuf = s.fbuf := rfl
@[simp] theorem complete_done (c : BitVec 4) : (s.complete c).done = true := rfl
@[simp] theorem complete_dvalid (c : BitVec 4) : (s.complete c).dvalid = (c == 0 && isDecoderOp s.lastOp) := rfl
@[simp] theorem complete_ovr (c : BitVec 4) : (s.complete c).ovr = s.ovr := rfl
@[simp] theorem complete_err (c : BitVec 4) : (s.complete c).err = c := rfl
@[simp] theorem complete_errf (c : BitVec 4) : (s.complete c).errf = s.errf := rfl
@[simp] theorem complete_fAddr (c : BitVec 4) : (s.complete c).fAddr = s.fAddr := rfl
@[simp] theorem complete_fNewAddr (c : BitVec 4) : (s.complete c).fNewAddr = s.fNewAddr := rfl
@[simp] theorem complete_fKind (c : BitVec 4) : (s.complete c).fKind = s.fKind := rfl
@[simp] theorem complete_fValue (c : BitVec 4) : (s.complete c).fValue = s.fValue := rfl
@[simp] theorem complete_fMaxI (c : BitVec 4) : (s.complete c).fMaxI = s.fMaxI := rfl
@[simp] theorem complete_fMaxP (c : BitVec 4) : (s.complete c).fMaxP = s.fMaxP := rfl
@[simp] theorem complete_fState (c : BitVec 4) : (s.complete c).fState = s.fState := rfl
@[simp] theorem complete_fCurrent (c : BitVec 4) : (s.complete c).fCurrent = s.fCurrent := rfl
@[simp] theorem complete_fVoltage (c : BitVec 4) : (s.complete c).fVoltage = s.fVoltage := rfl
@[simp] theorem complete_fPower (c : BitVec 4) : (s.complete c).fPower = s.fPower := rfl
@[simp] theorem complete_fRes (c : BitVec 4) : (s.complete c).fRes = s.fRes := rfl
@[simp] theorem complete_fGStatus (c : BitVec 4) : (s.complete c).fGStatus = s.fGStatus := rfl
@[simp] theorem complete_host (c : BitVec 4) : (s.complete c).host = s.host := rfl
@[simp] theorem complete_sink (c : BitVec 4) : (s.complete c).sink = s.sink := rfl
@[simp] theorem complete_source (c : BitVec 4) : (s.complete c).source = s.source := rfl
@[simp] theorem complete_turns (c : BitVec 4) : (s.complete c).turns = s.turns := rfl
@[simp] theorem complete_txTrace (c : BitVec 4) : (s.complete c).txTrace = s.txTrace := rfl
@[simp] theorem complete_readLog (c : BitVec 4) : (s.complete c).readLog = s.readLog := rfl

@[simp] theorem resetSfc_phase : (s.resetSfc).phase = .idle := rfl
@[simp] theorem resetSfc_lastOp : (s.resetSfc).lastOp = 0 := rfl
@[simp] theorem resetSfc_cnt : (s.resetSfc).cnt = 0 := rfl
@[simp] theorem resetSfc_acc : (s.resetSfc).acc = 0 := rfl
@[simp] theorem resetSfc_fbuf : (s.resetSfc).fbuf = [] := rfl
@[simp] theorem resetSfc_done : (s.resetSfc).done = false := rfl
@[simp] theorem resetSfc_dvalid : (s.resetSfc).dvalid = false := rfl
@[simp] theorem resetSfc_ovr : (s.resetSfc).ovr = false := rfl
@[simp] theorem resetSfc_err : (s.resetSfc).err = 0 := rfl
@[simp] theorem resetSfc_errf : (s.resetSfc).errf = 0 := rfl
@[simp] theorem resetSfc_fAddr : (s.resetSfc).fAddr = 0 := rfl
@[simp] theorem resetSfc_fNewAddr : (s.resetSfc).fNewAddr = 0 := rfl
@[simp] theorem resetSfc_fKind : (s.resetSfc).fKind = 0 := rfl
@[simp] theorem resetSfc_fValue : (s.resetSfc).fValue = 0 := rfl
@[simp] theorem resetSfc_fMaxI : (s.resetSfc).fMaxI = 0 := rfl
@[simp] theorem resetSfc_fMaxP : (s.resetSfc).fMaxP = 0 := rfl
@[simp] theorem resetSfc_fState : (s.resetSfc).fState = 0 := rfl
@[simp] theorem resetSfc_fCurrent : (s.resetSfc).fCurrent = 0 := rfl
@[simp] theorem resetSfc_fVoltage : (s.resetSfc).fVoltage = 0 := rfl
@[simp] theorem resetSfc_fPower : (s.resetSfc).fPower = 0 := rfl
@[simp] theorem resetSfc_fRes : (s.resetSfc).fRes = 0 := rfl
@[simp] theorem resetSfc_fGStatus : (s.resetSfc).fGStatus = 0 := rfl
@[simp] theorem resetSfc_host : (s.resetSfc).host = s.host := rfl
@[simp] theorem resetSfc_sink : (s.resetSfc).sink = s.sink := rfl
@[simp] theorem resetSfc_source : (s.resetSfc).source = s.source := rfl
@[simp] theorem resetSfc_turns : (s.resetSfc).turns = s.turns := rfl
@[simp] theorem resetSfc_txTrace : (s.resetSfc).txTrace = s.txTrace := rfl
@[simp] theorem resetSfc_readLog : (s.resetSfc).readLog = s.readLog := rfl

end Sys2Proof.Machine
end

