-- ==== Sys2Proof/Laws/Ops.lean ====
section
/-!
SUPPORT. What each shared operation of the machine can do, said once.
-/

namespace Sys2Proof.Machine

/-- The nine-bit sum cut to eight bits is addition of bytes, the carry dropped (40_checksum.md R89). -/
@[simp] theorem accStep_eq_add (acc b : Byte) : accStep acc b = acc + b := by
  apply BitVec.eq_of_toNat_eq
  have := acc.isLt
  have := b.isLt
  simp only [accStep, BitVec.zeroExtend, BitVec.extractLsb'_toNat, BitVec.toNat_add, BitVec.toNat_setWidth,
    Nat.shiftRight_zero]
  omega

@[simp] theorem busy_eq_false_iff (s : State) : s.busy = false ↔ s.phase = .idle := by simp [State.busy]

@[simp] theorem busy_eq_true_iff (s : State) : s.busy = true ↔ s.phase ≠ .idle := by simp [State.busy]

theorem present_of_idle {s : State} (opc : Byte) (body : State → State) (h : s.phase = .idle) :
    present opc body s = .next (body (s.accept opc)) := by
  simp [present, State.busy, h]

theorem present_of_busy {s : State} (opc : Byte) (body : State → State) (h : s.phase ≠ .idle) :
    present opc body s = .next s.dropCommand := by
  simp [present, State.busy, h]

/-- Presenting a command answers a next state: the dropped command while busy, the accepted one while idle. -/
theorem present_cases {opc : Byte} {body : State → State} {s t : State} (h : present opc body s = .next t) :
    (s.phase ≠ .idle ∧ t = s.dropCommand) ∨ (s.phase = .idle ∧ t = body (s.accept opc)) := by
  by_cases hp : s.phase = .idle
  · exact .inr ⟨hp, by rw [present_of_idle _ _ hp] at h; injection h with h; exact h.symm⟩
  · exact .inl ⟨hp, by rw [present_of_busy _ _ hp] at h; injection h with h; exact h.symm⟩

/-- What a command does once accepted, after the common acceptance actions. -/
def acceptedBody : Instr → State → State
  | .csumClr => fun s => { s with acc := 0x00 }.complete 0
  | .csumAdd imm8 => fun s => { s with acc := accStep s.acc imm8 }.complete 0
  | .encSet => encAccept 0x10 packSet
  | .encGetReq => encAccept 0x11 packGetReq
  | .encState => encAccept 0x12 packState
  | .encGetResp => encAccept 0x13 packGetResp
  | .decSet => decAccept
  | .decGet => decAccept
  | .decState => decAccept

/-- Every command goes through `present` with its own opcode. -/
theorem exec_eq_present (i : Instr) (s : State) : exec i s = present (opcodeOf i) (acceptedBody i) s := by
  cases i <;> rfl

theorem exec_of_busy (i : Instr) {s : State} (h : s.phase ≠ .idle) : exec i s = .next s.dropCommand := by
  rw [exec_eq_present, present_of_busy _ _ h]

theorem exec_of_idle (i : Instr) {s : State} (h : s.phase = .idle) :
    exec i s = .next (acceptedBody i (s.accept (opcodeOf i))) := by
  rw [exec_eq_present, present_of_idle _ _ h]

/-- An encoder's checks change ERRF alone. -/
theorem encValidate_eq (opc : Byte) (s : State) : encValidate opc s = { s with errf := (encValidate opc s).errf } := by
  unfold encValidate checkKind checkNewAddress checkAddress
  split_ifs <;> rfl

/-- The flags an encoder's checks add to ERRF (41_encode.md R94). -/
theorem encValidate_errf (opc : Byte) (s : State) :
    (encValidate opc s).errf =
      s.errf
        ||| (if s.fAddr = 0xFF ∨ (opc = 0x10 ∧ s.fNewAddr = 0xFF) then errorFlag .invalidAddress else 0)
        ||| (if opc = 0x10 ∧ ¬ (s.fKind = Config.kindCurrent ∨ s.fKind = Config.kindPower ∨
              s.fKind = Config.kindResistance) then errorFlag .invalidKind else 0) := by
  unfold encValidate checkKind checkNewAddress checkAddress
  split_ifs <;> simp_all [BitVec.or_assoc]

/-- An accepted encoder either completes with the error of its checks, or starts to send. -/
theorem encAccept_cases (opc : Byte) (pack : State → Memory) (s : State) :
    ((encValidate opc s).errf ≠ 0 ∧
      encAccept opc pack s = (encValidate opc s).complete (priority (encValidate opc s).errf)) ∨
    ((encValidate opc s).errf = 0 ∧
      encAccept opc pack s =
        { encValidate opc s with
          fbuf := setByte (pack (encValidate opc s)) Config.checksumOffset 0x00, acc := 0x00, cnt := 0
          phase := .tx }) := by
  by_cases h : (encValidate opc s).errf = 0
  · exact .inr ⟨h, if_neg (not_not_intro h)⟩
  · exact .inl ⟨h, if_pos h⟩

theorem txTake_below {s : State} (h : s.cnt.toNat < 25) :
    txTake s = .next { s with
      txTrace := s.txTrace ++ [byteAt s.fbuf s.cnt.toNat], acc := s.acc + byteAt s.fbuf s.cnt.toNat
      cnt := s.cnt + 1 } := by
  simp [txTake, offer, Config.checksumOffset, h]

theorem txTake_last {s : State} (h : s.cnt.toNat = 25) :
    txTake s = .next ({ s with
      txTrace := s.txTrace ++ [s.acc], fbuf := setByte s.fbuf 25 s.acc, cnt := 26 }.complete 0) := by
  simp [txTake, offer, Config.checksumOffset, h]

theorem txTake_past {s : State} (h : 25 < s.cnt.toNat) : txTake s = .fault (.noSuchOffset s.cnt) := by
  simp [txTake, Config.checksumOffset, show ¬ s.cnt.toNat < 25 by omega, show s.cnt.toNat ≠ 25 by omega]

/-- A TAKE answers a next state in two ways: a byte below 25, or the checksum byte. -/
theorem txTake_cases {s t : State} (h : txTake s = .next t) :
    (s.cnt.toNat < 25 ∧
      t = { s with
        txTrace := s.txTrace ++ [byteAt s.fbuf s.cnt.toNat], acc := s.acc + byteAt s.fbuf s.cnt.toNat
        cnt := s.cnt + 1 }) ∨
    (s.cnt.toNat = 25 ∧
      t = { s with txTrace := s.txTrace ++ [s.acc], fbuf := setByte s.fbuf 25 s.acc, cnt := 26 }.complete 0) := by
  rcases lt_trichotomy s.cnt.toNat 25 with hc | hc | hc
  · rw [txTake_below hc] at h; injection h with h; exact .inl ⟨hc, h.symm⟩
  · rw [txTake_last hc] at h; injection h with h; exact .inr ⟨hc, h.symm⟩
  · rw [txTake_past hc] at h; cases h

theorem rxDeliver_below {b : Byte} {s : State} (h : s.cnt.toNat < 25) :
    rxDeliver b s = .next { s with fbuf := setByte s.fbuf s.cnt.toNat b, acc := s.acc + b, cnt := s.cnt + 1 } := by
  simp [rxDeliver, Config.checksumOffset, h]

theorem rxDeliver_last {b : Byte} {s : State} (h : s.cnt.toNat = 25) :
    rxDeliver b s = .next (rxComplete { s with fbuf := setByte s.fbuf s.cnt.toNat b, cnt := s.cnt + 1 }) := by
  simp [rxDeliver, Config.checksumOffset, h]

theorem rxDeliver_past {b : Byte} {s : State} (h : 25 < s.cnt.toNat) :
    rxDeliver b s = .fault (.noSuchOffset s.cnt) := by
  simp [rxDeliver, Config.checksumOffset, show ¬ s.cnt.toNat < 25 by omega, show s.cnt.toNat ≠ 25 by omega]

/-- A DELIVER answers a next state in two ways: a byte below 25, or the last byte and the frame checks. -/
theorem rxDeliver_cases {b : Byte} {s t : State} (h : rxDeliver b s = .next t) :
    (s.cnt.toNat < 25 ∧ t = { s with fbuf := setByte s.fbuf s.cnt.toNat b, acc := s.acc + b, cnt := s.cnt + 1 }) ∨
    (s.cnt.toNat = 25 ∧ t = rxComplete { s with fbuf := setByte s.fbuf s.cnt.toNat b, cnt := s.cnt + 1 }) := by
  rcases lt_trichotomy s.cnt.toNat 25 with hc | hc | hc
  · rw [rxDeliver_below hc] at h; injection h with h; exact .inl ⟨hc, h.symm⟩
  · rw [rxDeliver_last hc] at h; injection h with h; exact .inr ⟨hc, h.symm⟩
  · rw [rxDeliver_past hc] at h; cases h

/-- The flags the frame checks add to ERRF (42_decode.md R105). -/
def frameCheckFlags (s : State) : BitVec 9 :=
  (if byteAt s.fbuf 0 ≠ Config.startByte then errorFlag .badStartByte else 0)
    ||| (if byteAt s.fbuf 2 ≠ expectedCommand s.lastOp then errorFlag .badCommandByte else 0)
    ||| (if byteAt s.fbuf 25 ≠ s.acc then errorFlag .checksumMismatch else 0)

/-- The frame checks set their flags and complete with the highest-priority one. -/
theorem rxComplete_eq (s : State) :
    rxComplete s = { s with errf := s.errf ||| frameCheckFlags s }.complete (priority (s.errf ||| frameCheckFlags s)) := by
  unfold rxComplete checkChecksum checkCommand checkStart frameCheckFlags Config.checksumOffset
  split_ifs <;> simp_all [State.complete, State.raise, BitVec.or_assoc]

end Sys2Proof.Machine
end

