-- ==== Sys2Proof/Laws/Encoder.lean ====
section
/-!
SUPPORT. The encoders: what their operand checks flag, and what their acceptance answers.
-/

namespace Sys2Proof.Machine

/-- What an encoder packs; nothing for the other commands. -/
def packOf : Instr → State → Memory
  | .encSet => packSet
  | .encGetReq => packGetReq
  | .encState => packState
  | .encGetResp => packGetResp
  | _ => fun s => s.fbuf

theorem acceptedBody_encoder {i : Instr} (he : isEncoderOp (opcodeOf i) = true) :
    acceptedBody i = encAccept (opcodeOf i) (packOf i) := by
  cases i <;> first | rfl | exact absurd he (by simp [opcodeOf, isEncoderOp])

theorem opcodeOf_eq_encSet (i : Instr) : opcodeOf i = 0x10 ↔ i = .encSet := by
  cases i <;> simp [opcodeOf]

theorem not_decoder_of_encoder {opc : Byte} (h : isEncoderOp opc = true) : isDecoderOp opc = false := by
  simp only [isEncoderOp, Bool.or_eq_true, beq_iff_eq] at h
  rcases h with ((rfl | rfl) | rfl) | rfl <;> rfl

/-- The flags the checks of an accepted encoder leave in ERRF (41_encode.md R94). -/
theorem encValidate_accept_errf (i : Instr) (s : State) :
    (encValidate (opcodeOf i) (s.accept (opcodeOf i))).errf =
      (if s.fAddr = 0xFF ∨ (i = .encSet ∧ s.fNewAddr = 0xFF) then 0x002 else 0x000)
        ||| (if i = .encSet ∧ s.fKind ≠ 1 ∧ s.fKind ≠ 2 ∧ s.fKind ≠ 3 then 0x004 else 0x000) := by
  rw [encValidate_errf]
  simp only [opcodeOf_eq_encSet, accept_errf, accept_fAddr, accept_fNewAddr, accept_fKind, Config.kindCurrent,
    Config.kindPower, Config.kindResistance, not_or]
  simp [errorFlag, errorCode]

/-- The checks of an accepted encoder flag nothing exactly where its operands are valid. -/
theorem encValidate_accept_eq_zero_iff (i : Instr) (s : State) :
    (encValidate (opcodeOf i) (s.accept (opcodeOf i))).errf = 0 ↔ OperandsValid i s := by
  rw [encValidate_accept_errf]
  unfold OperandsValid Config.kindCurrent Config.kindPower Config.kindResistance
  by_cases h1 : s.fAddr = 0xFF ∨ (i = .encSet ∧ s.fNewAddr = 0xFF) <;>
  by_cases h2 : i = .encSet ∧ s.fKind ≠ 1 ∧ s.fKind ≠ 2 ∧ s.fKind ≠ 3
  · rw [if_pos h1, if_pos h2]; exact ⟨fun h => absurd h (by decide), fun h => by tauto⟩
  · rw [if_pos h1, if_neg h2]; exact ⟨fun h => absurd h (by decide), fun h => by tauto⟩
  · rw [if_neg h1, if_pos h2]; exact ⟨fun h => absurd h (by decide), fun h => by tauto⟩
  · rw [if_neg h1, if_neg h2]; exact ⟨fun _ => by tauto, fun _ => rfl⟩

/-- An accepted encoder with valid operands starts to send (41_encode.md R95). -/
theorem acceptedBody_of_valid {i : Instr} {s : State} (he : isEncoderOp (opcodeOf i) = true) (h : OperandsValid i s) :
    acceptedBody i (s.accept (opcodeOf i)) =
      { s.accept (opcodeOf i) with
        fbuf := setByte (packOf i (s.accept (opcodeOf i))) 25 0, acc := 0, cnt := 0, phase := .tx } := by
  have h0 := (encValidate_accept_eq_zero_iff i s).2 h
  have hv : encValidate (opcodeOf i) (s.accept (opcodeOf i)) = s.accept (opcodeOf i) := by
    rw [encValidate_eq, h0]; rfl
  rw [acceptedBody_encoder he]
  rcases encAccept_cases (opcodeOf i) (packOf i) (s.accept (opcodeOf i)) with ⟨h1, _⟩ | ⟨_, h2⟩
  · exact absurd h0 h1
  · rw [h2, hv]; rfl

/-- An accepted encoder whose operands are not valid completes with the flags of its checks (41_encode.md R95). -/
theorem acceptedBody_of_invalid {i : Instr} {s : State} (he : isEncoderOp (opcodeOf i) = true)
    (h : ¬ OperandsValid i s) :
    acceptedBody i (s.accept (opcodeOf i)) =
      (encValidate (opcodeOf i) (s.accept (opcodeOf i))).complete
        (priority (encValidate (opcodeOf i) (s.accept (opcodeOf i))).errf) := by
  rw [acceptedBody_encoder he]
  rcases encAccept_cases (opcodeOf i) (packOf i) (s.accept (opcodeOf i)) with ⟨_, h2⟩ | ⟨h1, _⟩
  · exact h2
  · exact absurd ((encValidate_accept_eq_zero_iff i s).1 h1) h

theorem wf_packHeader (command : Byte) {s : State} (h : s.fbuf.wf = true) : (packHeader command s).wf = true := by
  unfold packHeader
  refine wf_memWrite _ (wf_memWrite _ (wf_memWrite _ h _ _ ?_) _ _ ?_) _ _ ?_ <;> simp [Config.frameLen]

theorem wf_packSet {s : State} (h : s.fbuf.wf = true) : (packSet s).wf = true := by
  unfold packSet
  refine wf_zeroFill _ (wf_memWrite _ (wf_memWrite _ (wf_memWrite _ (wf_memWrite _ (wf_memWrite _
    (wf_packHeader _ h) _ _ ?_) _ _ ?_) _ _ ?_) _ _ ?_) _ _ ?_) _ ?_ <;> simp [Config.frameLen]

theorem wf_packGetReq {s : State} (h : s.fbuf.wf = true) : (packGetReq s).wf = true := by
  unfold packGetReq
  refine wf_zeroFill _ (wf_packHeader _ h) _ ?_
  simp [Config.frameLen]

theorem wf_packState {s : State} (h : s.fbuf.wf = true) : (packState s).wf = true := by
  unfold packState
  refine wf_zeroFill _ (wf_memWrite _ (wf_packHeader _ h) _ _ ?_) _ ?_ <;> simp [Config.frameLen]

theorem wf_packGetResp {s : State} (h : s.fbuf.wf = true) : (packGetResp s).wf = true := by
  unfold packGetResp
  refine wf_zeroFill _ (wf_memWrite _ (wf_memWrite _ (wf_memWrite _ (wf_memWrite _ (wf_memWrite _ (wf_memWrite _
    (wf_memWrite _ (wf_packHeader _ h) _ _ ?_) _ _ ?_) _ _ ?_) _ _ ?_) _ _ ?_) _ _ ?_) _ _ ?_) _ ?_ <;>
    simp [Config.frameLen]

/-- The packed frames keep FBUF in canonical form. -/
theorem wf_packOf (i : Instr) {s : State} (h : s.fbuf.wf = true) : (packOf i s).wf = true := by
  cases i
  case encSet => rw [packOf]; exact wf_packSet h
  case encGetReq => rw [packOf]; exact wf_packGetReq h
  case encState => rw [packOf]; exact wf_packState h
  case encGetResp => rw [packOf]; exact wf_packGetResp h
  all_goals (simp only [packOf]; exact h)

end Sys2Proof.Machine
end

