-- ==== Sys2Proof/Laws/PerInstr.lean ====
section
/-!
SUPPORT. Statements made per command: the fields of a command's encoding are its opcode and its data.
-/

namespace Sys2Proof.Laws.EncodedFields

/-- The word of `i` carries its opcode in OPC and its byte in DATA, and `i` is well formed (30_encoding.md R68, R69). -/
def Statement (i : Instr) : Prop :=
  opcField (encode i) = opcodeOf i ∧ dataField (encode i) = dataOf i ∧ i.WellFormed = true

theorem csumClr : Statement .csumClr := by simp [Statement, encode, Instr.WellFormed]
theorem csumAdd (imm8 : Byte) : Statement (.csumAdd imm8) := by simp [Statement, encode, Instr.WellFormed]
theorem encSet : Statement .encSet := by simp [Statement, encode, Instr.WellFormed]
theorem encGetReq : Statement .encGetReq := by simp [Statement, encode, Instr.WellFormed]
theorem encState : Statement .encState := by simp [Statement, encode, Instr.WellFormed]
theorem encGetResp : Statement .encGetResp := by simp [Statement, encode, Instr.WellFormed]
theorem decSet : Statement .decSet := by simp [Statement, encode, Instr.WellFormed]
theorem decGet : Statement .decGet := by simp [Statement, encode, Instr.WellFormed]
theorem decState : Statement .decState := by simp [Statement, encode, Instr.WellFormed]

end Sys2Proof.Laws.EncodedFields
end

