-- ==== Sys2Proof/Laws/Step.lean ====
section
/-!
SUPPORT. What a step can do, said once: which agent moved, and what its turn answered.
-/

namespace Sys2Proof.Machine

/-- A named register written through its index. -/
@[simp] theorem hostWrite_regIndex (r : Reg) (v : Word) (s : State) :
    hostWrite (regIndex r) v s = writeReg r v s := by
  simp [hostWrite]

@[simp] theorem readIndex_regIndex (r : Reg) (s : State) : readIndex (regIndex r) s = readReg r s := by
  simp [readIndex]

/-- STATUS bit 0 is BUSY (20_memory.md R46). -/
@[simp] theorem statusWord_bit0 (s : State) : (statusWord s).getLsbD 0 = s.busy := by
  change (0#8 ++ s.lastOp ++ 0#3 ++ s.cnt ++ s.err ++ BitVec.ofBool s.ovr ++ BitVec.ofBool s.dvalid
    ++ BitVec.ofBool s.done ++ BitVec.ofBool s.busy : BitVec (8 + 8 + 3 + 5 + 4 + 1 + 1 + 1 + 1)).getLsbD 0 = s.busy
  simp only [BitVec.getLsbD_append]
  simp

theorem step_of_turns_nil {s : State} (h : s.turns = []) : step s = .next s := by
  simp [step, nextTurn, h]

theorem step_of_turns_cons {s : State} {a : Agent} {rest : List Agent} (h : s.turns = a :: rest) :
    step s = agentTurn a { s with turns := rest } := by
  simp [step, nextTurn, h]

/-- A step is no agent's, or the turn of the next agent of the interleaving. -/
theorem step_cases {s t : State} (h : step s = .next t) :
    (s.turns = [] ∧ t = s) ∨
      ∃ a rest, s.turns = a :: rest ∧ agentTurn a { s with turns := rest } = .next t := by
  cases ht : s.turns with
  | nil => rw [step_of_turns_nil ht] at h; injection h with h; exact .inl ⟨rfl, h.symm⟩
  | cons a rest => rw [step_of_turns_cons ht] at h; exact .inr ⟨a, rest, rfl, h⟩

/-- The host's turn: no transaction left, a read, a write, or one poll of `wait`. -/
theorem hostTurn_cases {s t : State} (h : hostTurn s = .next t) :
    (s.host = [] ∧ t = s) ∨
    (∃ idx rest, s.host = .rd idx :: rest ∧ t = hostRead idx { s with host := rest }) ∨
    (∃ idx v rest, s.host = .wr idx v :: rest ∧ hostWrite idx v { s with host := rest } = .next t) ∨
    (∃ rest, s.host = .wait :: rest ∧ t = hostPoll rest s) := by
  unfold hostTurn at h
  split at h
  · next hs => exact .inl ⟨hs, by injection h with h; exact h.symm⟩
  · next idx rest hs => exact .inr (.inl ⟨idx, rest, hs, by injection h with h; exact h.symm⟩)
  · next idx v rest hs => exact .inr (.inr (.inl ⟨idx, v, rest, hs, h⟩))
  · next rest hs => exact .inr (.inr (.inr ⟨rest, hs, by injection h with h; exact h.symm⟩))

/-- A host write: a reserved index, CTRL, a command presented, or a field (read-only registers keep the state). -/
theorem hostWrite_cases {idx : RegIndex} {v : Word} {s t : State} (h : hostWrite idx v s = .next t) :
    (0x26 ≤ idx.toNat ∧ t = s) ∨
    (idx = regIndex .ctrl ∧ t = writeCtrl v s) ∨
    (idx = regIndex .cmd ∧ presentCommand v s = .next t) ∨
    (∃ r, r ≠ .ctrl ∧ r ≠ .cmd ∧ idx = regIndex r ∧ t = writeField r v s) := by
  cases hr : regAt idx with
  | none =>
    simp only [hostWrite, hr] at h
    injection h with h
    exact .inl ⟨(regAt_eq_none_iff idx).1 hr, h.symm⟩
  | some r =>
    have hidx := (regIndex_of_regAt hr).symm
    subst hidx
    rw [hostWrite_regIndex] at h
    unfold writeReg at h
    split at h
    · injection h with h; exact .inr (.inl ⟨rfl, h.symm⟩)
    · exact .inr (.inr (.inl ⟨rfl, h⟩))
    · next hc hm =>
      injection h with h
      exact .inr (.inr (.inr ⟨r, fun e => hc e, fun e => hm e, rfl, h.symm⟩))

/-- A command word presented: a command of the opcode map, or an illegal one. -/
theorem presentCommand_cases {v : Word} {s t : State} (h : presentCommand v s = .next t) :
    (∃ i, decode v = .instr i ∧ exec i s = .next t) ∨
    (∃ opc, decode v = .illegalOp opc ∧ illegalCommand opc s = .next t) := by
  unfold presentCommand at h
  split at h
  · next i hd => exact .inl ⟨i, hd, h⟩
  · next opc hd => exact .inr ⟨opc, hd, h⟩

/-- The TX sink's turn: not enabled or silent, a TAKE, or a FAIL. -/
theorem sinkTurn_cases {s t : State} (h : sinkTurn s = .next t) :
    ((s.phase ≠ .tx ∨ s.sink = []) ∧ t = s) ∨
    (s.phase = .tx ∧ ∃ rest, s.sink = .take :: rest ∧ txTake { s with sink := rest } = .next t) ∨
    (s.phase = .tx ∧ ∃ rest, s.sink = .fail :: rest ∧ t = txFail { s with sink := rest }) := by
  unfold sinkTurn at h
  split at h
  · next hp =>
    split at h
    · next hs => exact .inl ⟨.inr hs, by injection h with h; exact h.symm⟩
    · next rest hs => exact .inr (.inl ⟨hp, rest, hs, h⟩)
    · next rest hs => exact .inr (.inr ⟨hp, rest, hs, by injection h with h; exact h.symm⟩)
  · next hp => exact .inl ⟨.inl hp, by injection h with h; exact h.symm⟩

/-- The RX source's turn: not enabled or silent, a DELIVER, or a TIMEOUT. -/
theorem sourceTurn_cases {s t : State} (h : sourceTurn s = .next t) :
    ((s.phase ≠ .rx ∨ s.source = []) ∧ t = s) ∨
    (s.phase = .rx ∧ ∃ b rest, s.source = .deliver b :: rest ∧ rxDeliver b { s with source := rest } = .next t) ∨
    (s.phase = .rx ∧ ∃ rest, s.source = .timeout :: rest ∧ t = rxTimeout { s with source := rest }) := by
  unfold sourceTurn at h
  split at h
  · next hp =>
    split at h
    · next hs => exact .inl ⟨.inr hs, by injection h with h; exact h.symm⟩
    · next b rest hs => exact .inr (.inl ⟨hp, b, rest, hs, h⟩)
    · next rest hs => exact .inr (.inr ⟨hp, rest, hs, by injection h with h; exact h.symm⟩)
  · next hp => exact .inl ⟨.inl hp, by injection h with h; exact h.symm⟩

end Sys2Proof.Machine
end

