-- ==== Sys2Proof/Laws/Run.lean ====
section
/-!
SUPPORT. Runs of several steps: runs join, and a run of TAKEs or of DELIVERs below offset 25 is one update of the state.
-/

namespace Sys2Proof.Machine

theorem runSteps_succ {n : Nat} {s t : State} (h : step s = .next t) : runSteps (n + 1) s = runSteps n t := by
  simp only [runSteps, h]

/-- A run of `m + n` steps is a run of `m` steps and then one of `n`. -/
theorem runSteps_add (n : Nat) : ∀ (m : Nat) {s t : State}, runSteps m s = .next t →
    runSteps (m + n) s = runSteps n t
  | 0, s, t, h => by
    injection h with h
    rw [Nat.zero_add, h]
  | m + 1, s, t, h => by
    rw [Nat.succ_add]
    simp only [runSteps] at h ⊢
    split at h
    · exact runSteps_add n m h
    · exact nomatch h
    · exact nomatch h

/-- The bytes `bs` stored from offset `a` on. -/
def storeBytes (m : Memory) (a : Nat) : List Byte → Memory
  | [] => m
  | b :: bs => storeBytes (setByte m a b) (a + 1) bs

theorem byteAt_storeBytes (bs : List Byte) : ∀ (m : Memory) (a a' : Nat),
    byteAt (storeBytes m a bs) a' = if a ≤ a' ∧ a' < a + bs.length then bs.getD (a' - a) 0 else byteAt m a' := by
  induction bs with
  | nil =>
    intro m a a'
    rw [if_neg (by simp), storeBytes]
  | cons b bs ih =>
    intro m a a'
    rw [storeBytes, ih]
    by_cases h : a' = a
    · subst h
      rw [if_neg (by omega), if_pos (by simp), byteAt_setByte_same]
      simp
    · rw [byteAt_setByte_other _ _ (by omega)]
      by_cases h' : a + 1 ≤ a' ∧ a' < a + 1 + bs.length
      · rw [if_pos h', if_pos (by simp only [List.length_cons]; omega),
          show a' - a = a' - (a + 1) + 1 by omega, List.getD_cons_succ]
      · rw [if_neg h', if_neg (by simp only [List.length_cons]; omega)]

theorem wf_storeBytes (bs : List Byte) : ∀ {m : Memory} (a : Nat), m.wf = true → a + bs.length ≤ Config.frameLen →
    (storeBytes m a bs).wf = true := by
  induction bs with
  | nil => intro m a h _; exact h
  | cons b bs ih =>
    intro m a h ha
    simp only [List.length_cons] at ha
    exact ih (a + 1) (wf_setByte h b (by omega)) (by omega)

theorem frameBytes_length (m : Memory) (n : Nat) : (frameBytes m n).length = n := by simp [frameBytes]

theorem frameBytes_congr {m m' : Memory} {n : Nat} (h : ∀ a, a < n → byteAt m a = byteAt m' a) :
    frameBytes m n = frameBytes m' n :=
  List.map_congr_left fun a ha => h a (List.mem_range.1 ha)

theorem frameBytes_succ (m : Memory) (n : Nat) : frameBytes m (n + 1) = frameBytes m n ++ [byteAt m n] := by
  simp [frameBytes, List.range_succ]

/-- The bytes at the offsets from `a` on, `n` of them. -/
def bytesFrom (m : Memory) (a n : Nat) : List Byte := (List.range' a n).map (byteAt m)

theorem bytesFrom_succ (m : Memory) (a n : Nat) : bytesFrom m a (n + 1) = byteAt m a :: bytesFrom m (a + 1) n := rfl

theorem bytesFrom_zero_eq_frameBytes (m : Memory) (n : Nat) : bytesFrom m 0 n = frameBytes m n := by
  simp [bytesFrom, frameBytes, List.range_eq_range']

theorem sinkTurn_take {s : State} {k : List TxAnswer} (hp : s.phase = .tx) (hk : s.sink = .take :: k) :
    sinkTurn s = txTake { s with sink := k } := by
  unfold sinkTurn
  rw [if_pos hp, hk]

theorem sourceTurn_deliver {s : State} {b : Byte} {k : List RxAnswer} (hp : s.phase = .rx)
    (hk : s.source = .deliver b :: k) : sourceTurn s = rxDeliver b { s with source := k } := by
  unfold sourceTurn
  rw [if_pos hp, hk]

/-- A run of `n` TAKEs below offset 25 sends the `n` bytes from CNT on and sums them (41_encode.md R96). -/
theorem runSteps_takes (n : Nat) : ∀ {s : State} {ts : List Agent} {k : List TxAnswer},
    s.phase = .tx → s.cnt.toNat + n ≤ 25 → s.turns = List.replicate n .txSink ++ ts →
    s.sink = List.replicate n .take ++ k →
    runSteps n s = .next { s with
      turns := ts, sink := k, txTrace := s.txTrace ++ bytesFrom s.fbuf s.cnt.toNat n
      acc := (bytesFrom s.fbuf s.cnt.toNat n).foldl accStep s.acc, cnt := s.cnt + BitVec.ofNat 5 n } := by
  induction n with
  | zero =>
    intro s ts k _ _ ht hk
    simp only [List.replicate_zero, List.nil_append] at ht hk
    subst ht hk
    simp [runSteps, bytesFrom]
  | succ n ih =>
    intro s ts k hp hc ht hk
    have hk : s.sink = .take :: (List.replicate n .take ++ k) := by rw [hk]; rfl
    have h1 : step s = .next { s with
        turns := List.replicate n .txSink ++ ts, sink := List.replicate n .take ++ k
        txTrace := s.txTrace ++ [byteAt s.fbuf s.cnt.toNat], acc := accStep s.acc (byteAt s.fbuf s.cnt.toNat)
        cnt := s.cnt + 1 } := by
      rw [step_of_turns_cons (rest := List.replicate n .txSink ++ ts) ht, agentTurn,
        sinkTurn_take (s := { s with turns := List.replicate n .txSink ++ ts }) (by exact hp) hk,
        txTake_below (by show s.cnt.toNat < 25; omega)]
      simp only [accStep_eq_add]
    have hn : (s.cnt + 1).toNat = s.cnt.toNat + 1 := by
      rw [BitVec.toNat_add]; simp; omega
    refine (runSteps_succ h1).trans ((ih (by exact hp) (by show (s.cnt + 1).toNat + n ≤ 25; omega) rfl rfl).trans ?_)
    simp only [hn, bytesFrom_succ, List.foldl_cons, List.append_assoc, List.singleton_append]
    congr 2
    rw [BitVec.add_assoc, Nat.add_comm n 1, BitVec.ofNat_add]
    rfl

/-- A run of DELIVERs below offset 25 stores the bytes from CNT on and sums them (42_decode.md R104). -/
theorem runSteps_delivers (bs : List Byte) : ∀ {s : State} {ts : List Agent} {k : List RxAnswer},
    s.phase = .rx → s.cnt.toNat + bs.length ≤ 25 → s.turns = List.replicate bs.length .rxSource ++ ts →
    s.source = bs.map .deliver ++ k →
    runSteps bs.length s = .next { s with
      turns := ts, source := k, fbuf := storeBytes s.fbuf s.cnt.toNat bs
      acc := bs.foldl accStep s.acc, cnt := s.cnt + BitVec.ofNat 5 bs.length } := by
  induction bs with
  | nil =>
    intro s ts k _ _ ht hk
    simp only [List.length_nil, List.replicate_zero, List.nil_append, List.map_nil] at ht hk
    subst ht hk
    simp [runSteps, storeBytes]
  | cons b bs ih =>
    intro s ts k hp hc ht hk
    simp only [List.length_cons] at hc ht
    have hk : s.source = .deliver b :: (bs.map .deliver ++ k) := by rw [hk]; rfl
    have h1 : step s = .next { s with
        turns := List.replicate bs.length .rxSource ++ ts, source := bs.map .deliver ++ k
        fbuf := setByte s.fbuf s.cnt.toNat b, acc := accStep s.acc b, cnt := s.cnt + 1 } := by
      rw [step_of_turns_cons (rest := List.replicate bs.length .rxSource ++ ts) ht, agentTurn,
        sourceTurn_deliver (s := { s with turns := List.replicate bs.length .rxSource ++ ts }) (by exact hp) hk,
        rxDeliver_below (by show s.cnt.toNat < 25; omega)]
      simp only [accStep_eq_add]
    have hn : (s.cnt + 1).toNat = s.cnt.toNat + 1 := by
      rw [BitVec.toNat_add]; simp; omega
    refine (runSteps_succ h1).trans
      ((ih (by exact hp) (by show (s.cnt + 1).toNat + bs.length ≤ 25; omega) rfl rfl).trans ?_)
    simp only [hn, List.foldl_cons, storeBytes, List.length_cons]
    congr 2
    rw [BitVec.add_assoc, Nat.add_comm bs.length 1, BitVec.ofNat_add]
    rfl

end Sys2Proof.Machine
end

