-- ==== Sys2Proof/Tests/Slice0.lean ====
section
/-!
SUPPORT. The model's own tests. Expected values come from 95_test_vectors.md (the vector is named) or from the rule
cited; a `witness_` theorem shows a state and operands that meet the hypotheses of the obligation it names.
-/

namespace Sys2Proof.Tests

open Sys2Proof.Machine

/-- `f` of the next state; false where there is none. -/
def nextIs (o : Host.Outcome State Fault Refusal) (f : State → Bool) : Bool :=
  match o with
  | .next t => f t
  | .fault _ => false
  | .refused _ => false

/-- STATUS, ERRF and ACC. -/
def seen (s : State) : Word × Word × Word := (readReg .status s, readReg .errf s, readReg .acc s)

/-- The state in which agent `a` moves next. -/
def turnOf (a : Agent) (s : State) : State := { s with turns := [a] }

/-- V1's operands: a Set frame for address 0 with 3000, 0, 0, current, 250. -/
def v1Fields : State := { State.reset with fMaxI := 3000, fKind := 1, fValue := 250 }

/-- V2's operands. -/
def v2Fields : State :=
  { State.reset with
    fAddr := 1, fCurrent := 250, fVoltage := 12000, fPower := 30, fMaxI := 3000, fMaxP := 1000, fGStatus := 3 }

/-- V2's frame, VE12. -/
def ve12 : List Byte :=
  [0xAA, 0x01, 0x91, 0xFA, 0x00, 0xE0, 0x2E, 0x00, 0x00, 0x1E, 0x00, 0xB8, 0x0B, 0xE8, 0x03, 0x00, 0x00, 0x03, 0x00,
   0x00, 0x00, 0x00, 0x00, 0x00, 0x00, 0x13]

/-- FBUF with VE12's first 18 bytes. -/
def ve12Memory : Memory :=
  [(0, 0xAA), (1, 0x01), (2, 0x91), (3, 0xFA), (5, 0xE0), (6, 0x2E), (9, 0x1E), (11, 0xB8), (12, 0x0B), (13, 0xE8),
   (14, 0x03), (17, 0x03)]

/-- Three bytes of a Get request sent. -/
def sendingState : State :=
  { State.reset with
    phase := .tx, lastOp := 0x11, cnt := 3, acc := 0x3C, fbuf := [(0, 0xAA), (1, 0x01), (2, 0x91)], fAddr := 1 }

/-- Three bytes of a Get response received. -/
def receivingState : State :=
  { State.reset with
    phase := .rx, lastOp := 0x21, cnt := 3, acc := 0x3C, fbuf := [(0, 0xAA), (1, 0x01), (2, 0x91)], fAddr := 1 }

/-- VE12's first 25 bytes received. -/
def receivedState : State :=
  { State.reset with phase := .rx, lastOp := 0x21, cnt := 25, acc := 0x13, fbuf := ve12Memory, fAddr := 1 }

/-! ### Well-formedness -/

theorem test_wr_too_wide_is_ill_formed : (Line.wr .fVoltage (2 ^ 32)).WellFormed = false := by decide
theorem test_wr_widest_is_well_formed : (Line.wr .fVoltage (2 ^ 32 - 1)).WellFormed = true := by decide
theorem test_csum_of_nothing_is_ill_formed : (Line.csum []).WellFormed = false := by decide
theorem test_csum_of_256_is_ill_formed : (Line.csum [0xAA, 256]).WellFormed = false := by decide
theorem test_csum_of_bytes_is_well_formed : (Line.csum [0x00, 0xFF]).WellFormed = true := by decide
theorem test_setq_kind_too_wide_is_ill_formed : (Line.setq (2 ^ 32) 0).WellFormed = false := by decide
theorem test_setq_value_too_wide_is_ill_formed : (Line.setq 1 (2 ^ 32)).WellFormed = false := by decide

/-! ### Decoding: words written out from 30_encoding.md R68 to R70 (bits 31:16 ignored, DATA, OPC) -/

theorem test_decode_csumClr : decode (0#16 ++ 0xAB#8 ++ 0b00000001#8) = .instr .csumClr := by decide
theorem test_decode_csumAdd : decode (0xFFFF#16 ++ 0b01011100#8 ++ 0b00000010#8) = .instr (.csumAdd 0x5C) := by decide
theorem test_decode_encSet : decode (0#16 ++ 0#8 ++ 0b00010000#8) = .instr .encSet := by decide
theorem test_decode_encGetReq : decode (0#16 ++ 0x33#8 ++ 0b00010001#8) = .instr .encGetReq := by decide
theorem test_decode_encState : decode (0#16 ++ 0#8 ++ 0b00010010#8) = .instr .encState := by decide
theorem test_decode_encGetResp : decode (0#16 ++ 0#8 ++ 0b00010011#8) = .instr .encGetResp := by decide
theorem test_decode_decSet : decode (0#16 ++ 0#8 ++ 0b00100000#8) = .instr .decSet := by decide
theorem test_decode_decGet : decode (0#16 ++ 0#8 ++ 0b00100001#8) = .instr .decGet := by decide
theorem test_decode_decState : decode (0x8000#16 ++ 0xFF#8 ++ 0b00100010#8) = .instr .decState := by decide
theorem test_decode_illegal : decode 0x00001214 = .illegalOp 0x14 := by decide
/-- P1 line 5. -/
theorem test_encode_csumAdd : encode (.csumAdd 0xB8) = 0x0000B802 := by decide
theorem test_decodeTableWord : decodeTableWord 16 0x5C02 = some (.csumAdd 0x5C) := by decide
theorem test_regAt_last : regAt 0x25 = some .dtState := by decide
theorem test_regAt_reserved : regAt 0x26 = none := by decide

/-! ### Commands -/

/-- VK1. -/
theorem test_csumAdd_ignores_high_bits :
    nextIs (hostWrite 0x01 0xFFFF5C02 State.reset) (fun t => decide (seen t = (0x00020002, 0, 0x5C))) = true := by
  decide
/-- 95_test_vectors.md section 2: 0xFF + 0xFF is 0xFE. -/
theorem test_csumAdd_discards_carry :
    nextIs (exec (.csumAdd 0xFF) { State.reset with acc := 0xFF }) (fun t => t.acc == 0xFE) = true := by decide
/-- VK2. -/
theorem test_csumClr :
    nextIs (hostWrite 0x01 0x0000AB01 { State.reset with acc := 0x5C }) (fun t => decide (seen t = (0x00010002, 0, 0)))
      = true := by
  decide
/-- V1 at acceptance. -/
theorem test_encSet :
    nextIs (exec .encSet v1Fields) (fun t => decide (seen t = (0x00100001, 0, 0) ∧
      [Reg.fbuf0, .fbuf1, .fbuf2, .fbuf6].map (readReg · t) = [0xB89000AA, 0x0000000B, 0x0000FA01, 0])) = true := by
  decide
/-- VX5: both flags, the address error reported. -/
theorem test_encSet_invalid :
    nextIs (exec .encSet { State.reset with fAddr := 0xFF }) (fun t => decide (seen t = (0x00100022, 0x006, 0))) = true := by
  decide
/-- VK3. -/
theorem test_encGetReq :
    nextIs (hostWrite 0x01 0x00003311 { State.reset with acc := 0x5C }) (fun t => decide (seen t = (0x00110001, 0, 0)))
      = true := by
  decide
/-- VE8: remote only. -/
theorem test_encState :
    nextIs (exec .encState { State.reset with fState := 0b10 }) (fun t => readReg .fbuf0 t == 0x029200AA) = true := by
  decide
/-- VE12. -/
theorem test_encGetResp :
    nextIs (exec .encGetResp v2Fields) (fun t => decide ([Reg.fbuf0, .fbuf1, .fbuf2, .fbuf3, .fbuf4, .fbuf5, .fbuf6].map
      (readReg · t) = [0xFA9101AA, 0x002EE000, 0xB8001E00, 0x0003E80B, 0x00000300, 0, 0])) = true := by
  decide
theorem test_decSet :
    nextIs (exec .decSet { v1Fields with fbuf := [(0, 0xAA), (25, 0xF8)], cnt := 26 })
      (fun t => decide (seen t = (0x00200001, 0, 0) ∧ t.fbuf = [])) = true := by
  decide
/-- P3 line 4. -/
theorem test_decGet :
    nextIs (exec .decGet { State.reset with acc := 0x3C, cnt := 26, fbuf := [(25, 0x3C)] })
      (fun t => decide (seen t = (0x00210001, 0, 0) ∧ t.fbuf = [])) = true := by
  decide
theorem test_decState : nextIs (exec .decState State.reset) (fun t => decide (seen t = (0x00220001, 0, 0))) = true := by
  decide
/-- P5 lines 4 and 5. -/
theorem test_dropped_command :
    nextIs (exec (.csumAdd 0x10) { sendingState with cnt := 5 })
      (fun t => decide (seen t = (0x00110509, 0, 0x3C))) = true := by
  decide

/-! ### The stream -/

/-- V1's 26th TAKE. -/
theorem test_take_of_the_checksum :
    nextIs (sinkTurn { v1Fields with phase := .tx, lastOp := 0x10, cnt := 25, acc := 0xF8, sink := [.take] })
      (fun t => decide (seen t = (0x00101A02, 0, 0xF8) ∧ t.txTrace = [0xF8] ∧ readReg .fbuf6 t = 0x0000F800)) = true := by
  decide
/-- VF3. -/
theorem test_fail :
    nextIs (sinkTurn { State.reset with phase := .tx, lastOp := 0x10, cnt := 3, acc := 0x3A, sink := [.fail] })
      (fun t => decide (seen t = (0x00100342, 0x008, 0x3A) ∧ t.txTrace = [])) = true := by
  decide
/-- VD3's 26th DELIVER. -/
theorem test_last_deliver :
    nextIs (sourceTurn { receivedState with source := [.deliver 0x13] })
      (fun t => decide (seen t = (0x00211A06, 0, 0x13) ∧ readReg .dHdr t = 0x139101AA ∧
        readReg .dgVoltage t = 0x00002EE0 ∧ readReg .dgFlags t = 0x03)) = true := by
  decide
/-- VD11's three flags, at the 26th DELIVER. -/
theorem test_three_failed_checks :
    nextIs (sourceTurn { State.reset with
        phase := .rx, lastOp := 0x20, cnt := 25, acc := 0xBE, fbuf := [(3, 0xB8)], source := [.deliver 0xF8] })
      (fun t => decide (seen t = (0x00201A72, 0x1C0, 0xBE))) = true := by
  decide
/-- VT1. -/
theorem test_timeout :
    nextIs (sourceTurn { State.reset with phase := .rx, lastOp := 0x21, source := [.timeout] })
      (fun t => decide (seen t = (0x00210052, 0x010, 0))) = true := by
  decide
/-- VT4's D_HDR and codes. -/
theorem test_short_read :
    nextIs (sourceTurn { receivedState with source := [.timeout] })
      (fun t => decide (seen t = (0x00211962, 0x020, 0x13) ∧ readReg .dHdr t = 0x009101AA)) = true := by
  decide

/-! ### Registers and reset -/

/-- VM1. -/
theorem test_field_write_is_masked :
    nextIs (hostWrite 0x05 0x1FF State.reset) (fun t => readIndex 0x05 t == 0xFF) = true := by decide
/-- VM3. -/
theorem test_gstatus_write_is_masked :
    nextIs (hostWrite 0x10 0xFF State.reset) (fun t => readIndex 0x10 t == 0x3F) = true := by decide
/-- VM6. -/
theorem test_ctrl_bit0_clear_has_no_effect :
    nextIs (hostWrite 0x00 0xFFFFFFFE sendingState) (fun t => t == sendingState) = true := by decide
/-- P5 lines 7 to 9. -/
theorem test_soft_reset :
    nextIs (hostWrite 0x00 0x00000001 { sendingState with ovr := true }) (fun t => t == State.reset) = true := by decide
/-- 95_test_vectors.md V1, D_HDR and DS_VALUE read with byte 25 = 0xF8. -/
theorem test_header_view :
    readIndex 0x18 { State.reset with fbuf := [(0, 0xAA), (2, 0x90), (9, 0xFA), (25, 0xF8)] } = 0xF89000AA := by decide
theorem test_withFetchWord :
    nextIs (step (State.reset.withFetchWord 16 0x5C02)) (fun t => decide (seen t = (0x00020002, 0, 0x5C))) = true := by
  decide

/-! ### Witnesses: states and operands that meet the hypotheses of the obligations -/

/-- Sending a Get request, with the sink about to answer `a`. -/
def sinkAbout (cnt : BitVec 5) (a : TxAnswer) : State :=
  { sendingState with cnt := cnt, turns := [.txSink, .host], sink := [a, .take] }

/-- Receiving a Get response, with the source about to answer `a`. -/
def sourceAbout (cnt : BitVec 5) (a : RxAnswer) : State :=
  { receivingState with cnt := cnt, turns := [.rxSource, .host], source := [a, .timeout] }

/-- `s` with the host about to make the transaction `op`. -/
def hostAbout (op : HostOp) (s : State) : State := { s with turns := [.host, .txSink], host := [op, .wait] }

theorem reset_legal : State.reset.Legal where
  memory := by decide
  cnt_le := by decide
  err_reports := by decide
  flags_possible := by decide
  running_clean := by decide
  done_idle := by decide
  dvalid_iff := by decide
  sending := by decide
  receiving h := nomatch h
  decoded h := nomatch h

theorem sending_legal (a : TxAnswer) : (sinkAbout 3 a).Legal where
  memory := (by decide : sendingState.fbuf.wf = true)
  cnt_le := (by decide : (3 : BitVec 5).toNat ≤ 26)
  err_reports := (by decide : (0 : BitVec 4) = priority 0)
  flags_possible := (by decide : (0 : BitVec 9) ∈ possibleFlags)
  running_clean _ := rfl
  done_idle h := nomatch h
  dvalid_iff := (by decide : false = true ↔ false = true ∧ (0 : BitVec 4) = 0 ∧ isDecoderOp 0x11 = true)
  sending _ := (by decide : isEncoderOp 0x11 = true ∧ (3 : BitVec 5).toNat ≤ 25 ∧
    (0x3C : Byte).toNat = byteSum (frameBytes sendingState.fbuf 3) % 256 ∧
    byteAt sendingState.fbuf 0 = Config.startByte ∧ byteAt sendingState.fbuf 25 = 0)
  receiving h := nomatch h
  decoded h := nomatch h

theorem receiving_legal (a : RxAnswer) : (sourceAbout 3 a).Legal where
  memory := (by decide : sendingState.fbuf.wf = true)
  cnt_le := (by decide : (3 : BitVec 5).toNat ≤ 26)
  err_reports := (by decide : (0 : BitVec 4) = priority 0)
  flags_possible := (by decide : (0 : BitVec 9) ∈ possibleFlags)
  running_clean _ := rfl
  done_idle h := nomatch h
  dvalid_iff := (by decide : false = true ↔ false = true ∧ (0 : BitVec 4) = 0 ∧ isDecoderOp 0x21 = true)
  sending h := nomatch h
  receiving _ := ⟨(by decide : isDecoderOp 0x21 = true), (by decide : (3 : BitVec 5).toNat ≤ 25),
    (by decide : (0x3C : Byte).toNat = byteSum (frameBytes sendingState.fbuf 3) % 256), fun a h => by
      have h : 3 ≤ a := h
      show byteAt sendingState.fbuf a = 0
      simp only [sendingState, byteAt]
      rw [if_neg (by omega), if_neg (by omega), if_neg (by omega)]⟩
  decoded h := nomatch h

/-- A TIMEOUT before any byte. -/
theorem silent_legal : State.Legal
    { State.reset with phase := .rx, lastOp := 0x21, turns := [.rxSource], source := [.timeout] } where
  memory := (by decide : State.reset.fbuf.wf = true)
  cnt_le := (by decide : (0 : BitVec 5).toNat ≤ 26)
  err_reports := (by decide : (0 : BitVec 4) = priority 0)
  flags_possible := (by decide : (0 : BitVec 9) ∈ possibleFlags)
  running_clean _ := rfl
  done_idle h := nomatch h
  dvalid_iff := (by decide : false = true ↔ false = true ∧ (0 : BitVec 4) = 0 ∧ isDecoderOp 0x21 = true)
  sending h := nomatch h
  receiving _ := ⟨by decide, (by decide : (0 : BitVec 5).toNat ≤ 25),
    (by decide : (0 : Byte).toNat = byteSum (frameBytes [] 0) % 256), fun _ _ => rfl⟩
  decoded h := nomatch h

theorem witness_DecodeAndEncodeAgree : (Instr.csumAdd 0x5C).WellFormed = true := by decide

/-- Both ends of each range of unlisted opcodes. -/
theorem witness_UnlistedOpcodeCompletesWithIllegalOp :
    State.reset.phase = .idle ∧
    [0x00000000#32, 0x00000003#32, 0x0000000F#32, 0x00000014#32, 0x0000001F#32, 0x00000023#32, 0x000000FF#32].all
      (fun v => let n := (opcField v).toNat
        decide (n = 0x00 ∨ (0x03 ≤ n ∧ n ≤ 0x0F) ∨ (0x14 ≤ n ∧ n ≤ 0x1F) ∨ (0x23 ≤ n ∧ n ≤ 0xFF))) = true ∧
    (hostAbout (.wr 0x01 0x23) State.reset).phase = .idle ∧
    (hostAbout (.wr 0x01 0x23) State.reset).turns = [.host, .txSink] ∧
    (hostAbout (.wr 0x01 0x23) State.reset).host = [.wr 0x01 0x23, .wait] := by
  decide

theorem witness_CommandWriteWhileBusyIsDropped : sendingState.phase ≠ .idle ∧ receivingState.phase ≠ .idle := by decide

theorem witness_StepRunsTheDecodedCommand :
    (hostAbout (.wr (regIndex .cmd) 0x5C02) State.reset).turns = [.host, .txSink] ∧
    (hostAbout (.wr (regIndex .cmd) 0x5C02) State.reset).host = [.wr (regIndex .cmd) 0x5C02, .wait] ∧
    decode 0x5C02 = .instr (.csumAdd 0x5C) ∧ (Instr.csumAdd 0x5C).WellFormed = true ∧
    decode (BitVec.ofNat 32 0x5C02) = .instr (.csumAdd 0x5C) := by
  decide

theorem witness_CsumClrClearsTheAccumulator :
    opcField 0xFFFFFF01 = 0x01 ∧ State.reset.phase = .idle ∧ State.reset.cnt = 0 ∧ State.reset.ovr = false ∧
    sendingState.phase ≠ .idle := by
  decide

theorem witness_CsumAddAddsItsByteModulo256 :
    opcField 0xFFFF5C02 = 0x02 ∧ State.reset.phase = .idle ∧ receivingState.phase ≠ .idle := by decide

theorem witness_CsumLineLeavesTheChecksumInAcc :
    let bs : List Byte := [0xAA, 0x91]
    let s : State :=
      { State.reset with
        turns := List.replicate 3 .host ++ [.txSink]
        host := assembleLine (.csum [0xAA, 0x91]) ++ [.rd 0x04] }
    bs ≠ [] ∧ s.phase = .idle ∧ s.turns = List.replicate (bs.length + 1) .host ++ [.txSink] ∧
    s.host = assembleLine (.csum (bs.map BitVec.toNat)) ++ [.rd 0x04] := by
  decide

/-- VE12 with bytes 3 and 5 swapped. -/
def ve12Swapped : List Byte := (ve12.set 3 0xE0).set 5 0xFA

/-- A byte changed, an order changed, and a frame that DEC.GET accepts with two of its bytes swapped. -/
theorem witness_ChecksumSeesOneByteButNotTheOrder :
    (1 < [0xAA#8, 0x91#8].length ∧ 0x90#8 ≠ [0xAA#8, 0x91#8].getD 1 0) ∧ [0xAA#8, 0x91#8].Perm [0x91#8, 0xAA#8] ∧
    (Instr.decGet, (0x91 : Byte)) ∈ decoders ∧ ve12.length = 26 ∧ ve12Swapped.length = 26 ∧ State.reset.phase = .idle ∧
    nextIs (runSteps 27 (withReceiving .decGet ve12 State.reset)) (fun t => t.err == 0) = true ∧
    ve12Swapped.getD 0 0 = ve12.getD 0 0 ∧ ve12Swapped.getD 2 0 = ve12.getD 2 0 ∧
    ve12Swapped.getD 25 0 = ve12.getD 25 0 ∧ (ve12.take 25).Perm (ve12Swapped.take 25) ∧
    (ve12Swapped.take 25).foldl accStep 0 = (ve12.take 25).foldl accStep 0 :=
  ⟨by decide, by decide, by decide, by decide, by decide, rfl, by decide +kernel, rfl, rfl, rfl, by decide +kernel,
    by decide⟩

/-- Also the witness of SetFrameRoundTrips and, for ENC.SET, of EncoderSendsItsWholeFrame. -/
theorem witness_EncSetPacksTheSetFrame : v1Fields.phase = .idle ∧ OperandsValid .encSet v1Fields := by
  unfold OperandsValid; decide

/-- The witness of EncGetReqPacksTheGetRequest, EncStatePacksTheStateFrame, EncGetRespPacksTheGetResponse,
GetResponseRoundTrips and StateFrameRoundTrips: the lowest and the largest valid address. -/
theorem witness_valid_address :
    State.reset.phase = .idle ∧ { State.reset with fAddr := 0xFE }.phase = .idle ∧ State.reset.fAddr ≠ 0xFF ∧
    ({ State.reset with fAddr := 0xFE } : State).fAddr ≠ 0xFF := by
  decide

/-- Each check that can fail, alone. -/
theorem witness_InvalidOperandsEndTheEncoder :
    State.reset.phase = .idle ∧ ¬ OperandsValid .encSet State.reset ∧
    ¬ OperandsValid .encSet { v1Fields with fKind := 4 } ∧ ¬ OperandsValid .encSet { v1Fields with fNewAddr := 0xFF } ∧
    ¬ OperandsValid .encSet { v1Fields with fAddr := 0xFF } ∧ ¬ OperandsValid .encState { v1Fields with fAddr := 0xFF } := by
  unfold OperandsValid; decide

theorem witness_ZeroGetResponseIsTheGetRequest :
    let s : State := { State.reset with fAddr := 1, fNewAddr := 0xFF, fKind := 7 }
    s.phase = .idle ∧ s.fAddr ≠ 0xFF ∧ s.fCurrent = 0 ∧ s.fVoltage = 0 ∧ s.fPower = 0 ∧ s.fMaxI = 0 ∧ s.fMaxP = 0 ∧
    s.fRes = 0 ∧ s.fGStatus = 0 := by
  decide

/-- CNT at 0, 24 and 25. -/
theorem witness_TakeSendsTheOfferedByte :
    (sinkAbout 25 .take).turns = [.txSink, .host] ∧ (sinkAbout 25 .take).sink = [.take, .take] ∧
    (sinkAbout 25 .take).phase = .tx ∧ (sinkAbout 0 .take).cnt.toNat < 25 ∧ (sinkAbout 24 .take).cnt.toNat < 25 ∧
    (sinkAbout 25 .take).cnt.toNat = 25 := by
  decide

theorem witness_FailEndsTheEncoder :
    (sinkAbout 3 .fail).Legal ∧ (sinkAbout 3 .fail).turns = [.txSink, .host] ∧
    (sinkAbout 3 .fail).sink = [.fail, .take] ∧ (sinkAbout 3 .fail).phase = .tx :=
  ⟨sending_legal _, rfl, rfl, rfl⟩

theorem witness_EncoderSendsItsWholeFrame :
    (∀ i, i = Instr.encSet ∨ i = .encGetReq ∨ i = .encState ∨ i = .encGetResp → OperandsValid i v1Fields) ∧
    v1Fields.phase = .idle := by
  refine ⟨?_, rfl⟩
  rintro i (rfl | rfl | rfl | rfl) <;> (unfold OperandsValid; decide)

theorem witness_FieldWritesDoNotReachTheFrameInFlight :
    ∃ s₁ t₁, (Reg.fAddr, (0xFF : Word)) ∈ fieldMasks ∧ (sinkAbout 3 .take).phase = .tx ∧
      hostWrite (regIndex .fAddr) 0x1FF (sinkAbout 3 .take) = .next s₁ ∧ sinkTurn s₁ = .next t₁ :=
  ⟨_, _, by decide, rfl, rfl, rfl⟩

theorem witness_DecodersStartToReceive : v1Fields.phase = .idle := by decide

theorem witness_DeliverStoresAndSumsTheByte :
    (sourceAbout 24 (.deliver 0xFF)).turns = [.rxSource, .host] ∧
    (sourceAbout 24 (.deliver 0xFF)).source = [.deliver 0xFF, .timeout] ∧
    (sourceAbout 24 (.deliver 0xFF)).phase = .rx ∧ (sourceAbout 24 (.deliver 0xFF)).cnt.toNat < 25 ∧
    (sourceAbout 0 (.deliver 0xFF)).cnt.toNat < 25 := by
  decide

/-- A frame that passes every check (byte 0x13) or fails the last (any other byte). -/
theorem witness_LastDeliverChecksTheFrame :
    let s : State := { receivedState with turns := [.rxSource], source := [.deliver 0x13] }
    s.turns = [.rxSource] ∧ s.source = [.deliver 0x13] ∧ s.phase = .rx ∧ s.cnt.toNat = 25 ∧ s.errf = 0 := by
  decide

/-- A TIMEOUT after no byte, and after three. -/
theorem witness_TimeoutEndsTheDecoder :
    (sourceAbout 3 .timeout).Legal ∧ (sourceAbout 3 .timeout).turns = [.rxSource, .host] ∧
    (sourceAbout 3 .timeout).source = [.timeout, .timeout] ∧ (sourceAbout 3 .timeout).phase = .rx ∧
    ∃ s : State, s.Legal ∧ s.turns = [.rxSource] ∧ s.source = [.timeout] ∧ s.phase = .rx ∧ s.cnt = 0 :=
  ⟨receiving_legal _, rfl, rfl, rfl, _, silent_legal, rfl, rfl, rfl, rfl⟩

theorem witness_DecoderReceivesAndChecksItsFrame :
    (Instr.decGet, (0x91 : Byte)) ∈ decoders ∧ (Instr.decSet, (0x90 : Byte)) ∈ decoders ∧
    (Instr.decState, (0x92 : Byte)) ∈ decoders ∧ ve12.length = 26 ∧ State.reset.phase = .idle := by
  decide

/-- No byte, and 25 bytes. -/
theorem witness_ShortFrameEndsInATimeoutError :
    ∀ bs ∈ [([] : List Byte), ve12.take 25],
      let s : State :=
        { State.reset with
          turns := .host :: List.replicate (bs.length + 1) .rxSource ++ [.host]
          host := [commandLine .decGet, .wait], source := bs.map .deliver ++ [.timeout, .timeout] }
      (Instr.decGet, (0x91 : Byte)) ∈ decoders ∧ bs.length < 26 ∧ s.phase = .idle ∧
      s.turns = .host :: List.replicate (bs.length + 1) .rxSource ++ [.host] ∧
      s.host = commandLine .decGet :: [.wait] ∧ s.source = bs.map .deliver ++ .timeout :: [.timeout] := by
  decide

/-- VE12 is accepted by DEC.GET; the byte changed is the first and the last, and the field edited the first and last. -/
theorem witness_OneChangedByteIsAlwaysDetected :
    (Instr.decGet, (0x91 : Byte)) ∈ decoders ∧ ve12.length = 26 ∧ State.reset.phase = .idle ∧
    nextIs (runSteps 27 (withReceiving .decGet ve12 State.reset)) (fun t => t.err == 0) = true ∧
    (0 < 26 ∧ 0x55#8 ≠ ve12.getD 0 0) ∧ (25 < 26 ∧ 0x55#8 ≠ ve12.getD 25 0) ∧
    (1 < 25 ∧ 1 ≠ 0 ∧ 1 ≠ 2) ∧ (24 < 25 ∧ 24 ≠ 0 ∧ 24 ≠ 2) :=
  ⟨by decide, by decide, rfl, by decide +kernel, by decide, by decide, by decide, by decide⟩

theorem witness_DecoderResultIsAFunctionOfTheBytes :
    ∃ t₁ t₂, (Instr.decGet, (0x91 : Byte)) ∈ decoders ∧ ve12.length = 26 ∧ State.reset.phase = .idle ∧
      v1Fields.phase = .idle ∧ State.reset.ovr = v1Fields.ovr ∧ (Reg.dgPower ∈ readOnlyRegs ∧ Reg.dgPower ≠ .status) ∧
      runSteps 27 (withReceiving .decGet ve12 State.reset) = .next t₁ ∧
      runSteps 27 (withReceiving .decGet ve12 v1Fields) = .next t₂ :=
  ⟨_, _, by decide, by decide, rfl, rfl, rfl, by decide, rfl, rfl⟩

theorem witness_QueryDecodesTheResponse :
    State.reset.phase = .idle ∧ State.reset.fAddr ≠ 0xFF ∧ ve12.length = 26 ∧ ve12.getD 0 0 = 0xAA ∧
    ve12.getD 2 0 = 0x91 ∧ (ve12.getD 25 0).toNat = byteSum (ve12.take 25) % 256 := by
  decide

/-- Each field register, with its mask. -/
theorem witness_FieldWritesAreMasked :
    (Reg.fAddr, (0xFF : Word)) ∈ fieldMasks ∧ (Reg.fState, (0x3 : Word)) ∈ fieldMasks ∧
    (Reg.fVoltage, (0xFFFFFFFF : Word)) ∈ fieldMasks ∧ (Reg.fGStatus, (0x3F : Word)) ∈ fieldMasks ∧
    Reg.acc ≠ .fAddr := by
  decide

theorem witness_ReservedIndexesReadZeroAndIgnoreWrites :
    0x26 ≤ (0x26 : RegIndex).toNat ∧ 0x26 ≤ (0x3F : RegIndex).toNat := by decide

theorem witness_ReadOnlyRegistersIgnoreWrites : Reg.status ∈ readOnlyRegs ∧ Reg.dtState ∈ readOnlyRegs := by decide

theorem witness_HostReadOnlyRecordsTheValue :
    (hostAbout (.rd 0x3F) sendingState).turns = [.host, .txSink] ∧
    (hostAbout (.rd 0x3F) sendingState).host = [.rd 0x3F, .wait] := by
  decide

theorem witness_FbufRegistersPackTheFrame : 0 < 6 ∧ 5 < 6 ∧ 0 < 4 ∧ 3 < 4 := by decide

theorem witness_WaitPollsStatusUntilNotBusy :
    (hostAbout .wait sendingState).turns = [.host, .txSink] ∧ (hostAbout .wait sendingState).host = [.wait, .wait] ∧
    (hostAbout .wait sendingState).phase ≠ .idle ∧ (hostAbout .wait State.reset).turns = [.host, .txSink] ∧
    (hostAbout .wait State.reset).host = [.wait, .wait] ∧ (hostAbout .wait State.reset).phase = .idle := by
  decide

/-- The bounds of the immediates of `wr` and `setq`. -/
theorem witness_LinesStandForTheirTransactions : 0 < 2 ^ 32 ∧ 0xFFFFFFFF < 2 ^ 32 := by decide

/-- No flag; the lowest flag; the highest; and a flag that is not the lowest, with a lower code. -/
theorem witness_PriorityIsTheLowestFlag :
    (0 : BitVec 9) = 0 ∧ (0x001 : BitVec 9) ≠ 0 ∧ (0x100 : BitVec 9) ≠ 0 ∧
    (1 ≤ 8 ∧ 8 < (priority 0x100).toNat) := by
  decide

theorem witness_HardwareResetRestoresResetState : (turnOf .resetInput sendingState).turns = [.resetInput] := by decide

theorem witness_CtrlWriteIsTheSoftReset :
    (0x00000001 : Word).getLsbD 0 = true ∧ (0xFFFFFFFE : Word).getLsbD 0 = false := by decide

theorem witness_EveryStepKeepsTheStateLegal :
    (sinkAbout 3 .take).Legal ∧ (sourceAbout 3 (.deliver 0xFF)).Legal ∧ State.reset.Legal ∧
    (∃ t, step (sinkAbout 3 .take) = .next t) ∧ ∃ t, step (sourceAbout 3 (.deliver 0xFF)) = .next t :=
  ⟨sending_legal _, receiving_legal _, reset_legal, ⟨_, rfl⟩, ⟨_, rfl⟩⟩

theorem witness_LegalStatesNeverStop : (sinkAbout 3 .take).Legal := sending_legal _

theorem witness_OnlyResetClearsOverrun :
    let s := hostAbout (.wr 0x00 1) { sendingState with ovr := true }
    ∃ t, step s = .next t ∧ s.ovr = true ∧ t.ovr = false :=
  ⟨_, rfl, rfl, rfl⟩

theorem witness_OnlyFieldWritesAndResetChangeFields :
    let s := hostAbout (.wr 0x05 7) sendingState
    ∃ t, step s = .next t ∧ ¬ FieldsKept s t :=
  ⟨_, rfl, by unfold FieldsKept; decide⟩

/-- A departure to TX and a return to IDLE. -/
theorem witness_PhaseMovesOnlyByCommandsCompletionAndReset :
    (∃ t, step (hostAbout (commandLine .encGetReq) State.reset) = .next t ∧ Phase.idle ≠ t.phase) ∧
    ∃ t, step (sinkAbout 25 .take) = .next t ∧ Phase.tx ≠ t.phase :=
  ⟨⟨_, rfl, by decide⟩, ⟨_, rfl, by decide⟩⟩

theorem witness_AccChangesOnlyAsListed :
    ∃ t, step (sourceAbout 3 (.deliver 0xFF)) = .next t ∧ t.acc ≠ (sourceAbout 3 (.deliver 0xFF)).acc :=
  ⟨_, rfl, by decide⟩

theorem witness_FbufChangesOnlyAsListed :
    ∃ t, step (sourceAbout 3 (.deliver 0xFF)) = .next t ∧ t.fbuf ≠ (sourceAbout 3 (.deliver 0xFF)).fbuf :=
  ⟨_, rfl, by decide⟩

theorem witness_StreamSidesWaitForTheirPhase :
    ((turnOf .txSink receivingState).turns = [.txSink] ∧ (turnOf .txSink receivingState).phase ≠ .tx) ∧
    ((turnOf .rxSource sendingState).turns = [.rxSource] ∧ (turnOf .rxSource sendingState).phase ≠ .rx) := by
  decide

theorem witness_AnsweredFramesEndWithin26Steps :
    (∃ s : State, s.Legal ∧ s.phase = .tx ∧ s.turns = List.replicate 26 .txSink ++ [] ∧ 26 ≤ s.sink.length) ∧
    ∃ s : State, s.Legal ∧ s.phase = .rx ∧ s.turns = List.replicate 26 .rxSource ++ [] ∧ 26 ≤ s.source.length :=
  ⟨⟨{ sinkAbout 3 .take with turns := List.replicate 26 .txSink, sink := List.replicate 26 .take },
      { sending_legal .take with }, rfl, rfl, by decide⟩,
    ⟨{ sourceAbout 3 .timeout with turns := List.replicate 26 .rxSource, source := List.replicate 26 .timeout },
      { receiving_legal .timeout with }, rfl, rfl, by decide⟩⟩

end Sys2Proof.Tests
end

/-!
The state's own family (10_state.md): what one step can do, said once as `StepEffect`, and from it which steps change
OVR, the fields, PHASE, ACC and FBUF, and that every step keeps the state legal.
-/

namespace Sys2Proof.Machine

/-! ### What a step keeps -/

/-- The ten elements of 10_state.md R12 that are no field register hold in `t` what they hold in `s`. -/
structure CoreKept (s t : State) : Prop where
  phase : t.phase = s.phase
  lastOp : t.lastOp = s.lastOp
  cnt : t.cnt = s.cnt
  acc : t.acc = s.acc
  fbuf : t.fbuf = s.fbuf
  done : t.done = s.done
  dvalid : t.dvalid = s.dvalid
  ovr : t.ovr = s.ovr
  err : t.err = s.err
  errf : t.errf = s.errf

theorem CoreKept.refl (s : State) : CoreKept s s := by constructor <;> rfl

/-- The coming turns and transactions are no part of the core. -/
theorem CoreKept.of_withHostTurn {s t : State} {ts : List Agent} {h : List HostOp}
    (c : CoreKept { s with turns := ts, host := h } t) : CoreKept s t :=
  { c with }

theorem fieldsKept_refl (s : State) : FieldsKept s s := by simp [FieldsKept]

theorem writeField_coreKept (r : Reg) (v : Word) (s : State) : CoreKept s (writeField r v s) := by
  cases r <;> exact .mk rfl rfl rfl rfl rfl rfl rfl rfl rfl rfl

/-- Outside the indexes 0x05 to 0x10 of the field registers a write has no effect (20_memory.md R43). -/
theorem writeField_of_not_field {r : Reg} (h : ¬ (0x05 ≤ (regIndex r).toNat ∧ (regIndex r).toNat ≤ 0x10)) (v : Word)
    (s : State) : writeField r v s = s := by
  cases r <;> simp_all [regIndex, writeField]

theorem hostRead_coreKept (idx : RegIndex) (s : State) : CoreKept s (hostRead idx s) := by constructor <;> rfl

theorem hostRead_fieldsKept (idx : RegIndex) (s : State) : FieldsKept s (hostRead idx s) := fieldsKept_refl s

theorem hostPoll_coreKept (rest : List HostOp) (s : State) : CoreKept s (hostPoll rest s) := by
  unfold hostPoll
  split <;> exact .mk rfl rfl rfl rfl rfl rfl rfl rfl rfl rfl

theorem hostPoll_fieldsKept (rest : List HostOp) (s : State) : FieldsKept s (hostPoll rest s) := by
  unfold hostPoll
  split <;> exact fieldsKept_refl s

/-! ### What a command does -/

/-- What presenting the decoded command word `d` to the idle SFC in state `s` does. -/
inductive CommandEffect (d : Decoded) (s t : State) : Prop where
  | illegal (opc : Byte) (word : d = .illegalOp opc)
      (after : t = ((s.accept opc).raise .illegalOp).complete (errorCode .illegalOp))
  | csum (i : Instr) (a : Byte) (word : d = .instr i) (notEncoder : isEncoderOp (opcodeOf i) = false)
      (notDecoder : isDecoderOp (opcodeOf i) = false)
      (after : t = { s.accept (opcodeOf i) with acc := a }.complete 0)
  | encoderFails (i : Instr) (f : BitVec 9) (word : d = .instr i) (encoder : isEncoderOp (opcodeOf i) = true)
      (flags : f ∈ possibleFlags) (after : t = { s.accept (opcodeOf i) with errf := f }.complete (priority f))
  | encoderStarts (i : Instr) (word : d = .instr i) (encoder : isEncoderOp (opcodeOf i) = true)
      (valid : OperandsValid i s)
      (after : t = { s.accept (opcodeOf i) with
        fbuf := setByte (packOf i (s.accept (opcodeOf i))) 25 0, acc := 0, cnt := 0, phase := .tx })
  | decoderStarts (i : Instr) (word : d = .instr i) (decoder : isDecoderOp (opcodeOf i) = true)
      (after : t = decAccept (s.accept (opcodeOf i)))

/-- The flags an accepted encoder's checks leave are none, one operand flag or both (60_exceptions.md R116). -/
theorem encValidate_accept_possible (i : Instr) (s : State) :
    (encValidate (opcodeOf i) (s.accept (opcodeOf i))).errf ∈ possibleFlags := by
  rw [encValidate_accept_errf]
  split_ifs <;> decide

theorem encoder_effect {i : Instr} (he : isEncoderOp (opcodeOf i) = true) (s : State) :
    CommandEffect (.instr i) s (acceptedBody i (s.accept (opcodeOf i))) := by
  by_cases hv : OperandsValid i s
  · exact .encoderStarts i rfl he hv (acceptedBody_of_valid he hv)
  · exact .encoderFails i _ rfl he (encValidate_accept_possible i s)
      (by rw [acceptedBody_of_invalid he hv, ← encValidate_eq])

theorem acceptedBody_effect (i : Instr) (s : State) :
    CommandEffect (.instr i) s (acceptedBody i (s.accept (opcodeOf i))) := by
  cases i
  case csumClr => exact .csum .csumClr 0 rfl rfl rfl rfl
  case csumAdd b => exact .csum (.csumAdd b) (accStep s.acc b) rfl rfl rfl rfl
  case encSet | encGetReq | encState | encGetResp => exact encoder_effect rfl s
  case decSet | decGet | decState => exact .decoderStarts _ rfl rfl rfl

/-- A CMD write is dropped while busy, and has one of the effects above while idle (30_encoding.md R71, R72). -/
theorem presentCommand_effect {v : Word} {s t : State} (h : presentCommand v s = .next t) :
    (s.phase ≠ .idle ∧ t = s.dropCommand) ∨ (s.phase = .idle ∧ CommandEffect (decode v) s t) := by
  rcases presentCommand_cases h with ⟨i, hd, he⟩ | ⟨opc, hd, he⟩
  · rw [exec_eq_present] at he
    rcases present_cases he with hbusy | ⟨hp, rfl⟩
    · exact .inl hbusy
    · exact .inr ⟨hp, hd ▸ acceptedBody_effect i s⟩
  · rcases present_cases he with hbusy | ⟨hp, rfl⟩
    · exact .inl hbusy
    · exact .inr ⟨hp, .illegal opc hd rfl⟩

/-! ### What a step does -/

theorem rxTimeout_raises (s : State) :
    ∃ e, rxTimeout s = (s.raise e).complete (priority (s.errf ||| errorFlag e)) := by
  unfold rxTimeout
  split
  · exact ⟨.streamTimeout, rfl⟩
  · exact ⟨.shortRead, rfl⟩

/-- What one step from `s` to `t` does: nothing inside the SFC, or one of the events of the rules, with the turn and
the transaction or answer that make it. -/
inductive StepEffect (s t : State) : Prop where
  | silent (core : CoreKept s t) (fields : FieldsKept s t)
  | hardReset (ts : List Agent) (turns : s.turns = .resetInput :: ts) (after : t = { s with turns := ts }.resetSfc)
  | softReset (ts : List Agent) (v : Word) (h : List HostOp) (turns : s.turns = .host :: ts)
      (host : s.host = .wr 0x00 v :: h) (bit : v.getLsbD 0 = true)
      (after : t = { s with turns := ts, host := h }.resetSfc)
  | fieldWrite (ts : List Agent) (idx : RegIndex) (v : Word) (h : List HostOp) (turns : s.turns = .host :: ts)
      (host : s.host = .wr idx v :: h) (range : 0x05 ≤ idx.toNat ∧ idx.toNat ≤ 0x10) (core : CoreKept s t)
  | dropped (ts : List Agent) (v : Word) (h : List HostOp) (turns : s.turns = .host :: ts)
      (host : s.host = .wr 0x01 v :: h) (busy : s.phase ≠ .idle)
      (after : t = { s with turns := ts, host := h }.dropCommand)
  | command (ts : List Agent) (v : Word) (h : List HostOp) (turns : s.turns = .host :: ts)
      (host : s.host = .wr 0x01 v :: h) (idle : s.phase = .idle)
      (effect : CommandEffect (decode v) { s with turns := ts, host := h } t)
  | take (ts : List Agent) (k : List TxAnswer) (turns : s.turns = .txSink :: ts) (sink : s.sink = .take :: k)
      (sending : s.phase = .tx) (below : s.cnt.toNat < 25)
      (after : t = { s with
        turns := ts, sink := k, txTrace := s.txTrace ++ [byteAt s.fbuf s.cnt.toNat]
        acc := s.acc + byteAt s.fbuf s.cnt.toNat, cnt := s.cnt + 1 })
  | takeLast (ts : List Agent) (k : List TxAnswer) (turns : s.turns = .txSink :: ts) (sink : s.sink = .take :: k)
      (sending : s.phase = .tx) (last : s.cnt.toNat = 25)
      (after : t = { s with
        turns := ts, sink := k, txTrace := s.txTrace ++ [s.acc], fbuf := setByte s.fbuf 25 s.acc, cnt := 26 }.complete 0)
  | fail (ts : List Agent) (k : List TxAnswer) (turns : s.turns = .txSink :: ts) (sink : s.sink = .fail :: k)
      (sending : s.phase = .tx)
      (after : t = ({ s with turns := ts, sink := k }.raise .streamWriteFailure).complete
        (errorCode .streamWriteFailure))
  | deliver (ts : List Agent) (b : Byte) (k : List RxAnswer) (turns : s.turns = .rxSource :: ts)
      (source : s.source = .deliver b :: k) (receiving : s.phase = .rx) (below : s.cnt.toNat < 25)
      (after : t = { s with
        turns := ts, source := k, fbuf := setByte s.fbuf s.cnt.toNat b, acc := s.acc + b, cnt := s.cnt + 1 })
  | deliverLast (ts : List Agent) (b : Byte) (k : List RxAnswer) (turns : s.turns = .rxSource :: ts)
      (source : s.source = .deliver b :: k) (receiving : s.phase = .rx) (last : s.cnt.toNat = 25)
      (after : t = rxComplete { s with
        turns := ts, source := k, fbuf := setByte s.fbuf s.cnt.toNat b, cnt := s.cnt + 1 })
  | timeout (ts : List Agent) (k : List RxAnswer) (e : ErrorCause) (turns : s.turns = .rxSource :: ts)
      (source : s.source = .timeout :: k) (receiving : s.phase = .rx)
      (after : t = ({ s with turns := ts, source := k }.raise e).complete (priority (s.errf ||| errorFlag e)))

theorem hostWrite_effect {s t : State} {ts : List Agent} {idx : RegIndex} {v : Word} {h : List HostOp}
    (turns : s.turns = .host :: ts) (host : s.host = .wr idx v :: h)
    (hw : hostWrite idx v { s with turns := ts, host := h } = .next t) : StepEffect s t := by
  rcases hostWrite_cases hw with ⟨-, rfl⟩ | ⟨rfl, rfl⟩ | ⟨rfl, hc⟩ | ⟨r, -, -, rfl, rfl⟩
  case inl => exact .silent (CoreKept.refl _).of_withHostTurn (fieldsKept_refl s)
  case inr.inl =>
    unfold writeCtrl
    split
    · next bit => exact .softReset ts v h turns host bit rfl
    · exact .silent (CoreKept.refl _).of_withHostTurn (fieldsKept_refl s)
  case inr.inr.inl =>
    rcases presentCommand_effect hc with ⟨busy, rfl⟩ | ⟨idle, effect⟩
    · exact .dropped ts v h turns host busy rfl
    · exact .command ts v h turns host idle effect
  case inr.inr.inr =>
    by_cases range : 0x05 ≤ (regIndex r).toNat ∧ (regIndex r).toNat ≤ 0x10
    · exact .fieldWrite ts _ v h turns host range (writeField_coreKept r v _).of_withHostTurn
    · rw [writeField_of_not_field range]
      exact .silent (CoreKept.refl _).of_withHostTurn (fieldsKept_refl s)

theorem hostTurn_effect {s t : State} {ts : List Agent} (turns : s.turns = .host :: ts)
    (ht : hostTurn { s with turns := ts } = .next t) : StepEffect s t := by
  rcases hostTurn_cases ht with ⟨-, rfl⟩ | ⟨idx, rest, -, rfl⟩ | ⟨idx, v, rest, host, hw⟩ | ⟨rest, -, rfl⟩
  · exact .silent (CoreKept.refl _).of_withHostTurn (fieldsKept_refl s)
  · exact .silent (hostRead_coreKept idx _).of_withHostTurn (hostRead_fieldsKept idx { s with turns := ts })
  · exact hostWrite_effect turns host hw
  · exact .silent (hostPoll_coreKept rest _).of_withHostTurn (hostPoll_fieldsKept rest { s with turns := ts })

theorem sinkTurn_effect {s t : State} {ts : List Agent} (turns : s.turns = .txSink :: ts)
    (ht : sinkTurn { s with turns := ts } = .next t) : StepEffect s t := by
  rcases sinkTurn_cases ht with ⟨-, rfl⟩ | ⟨sending, k, sink, htake⟩ | ⟨sending, k, sink, rfl⟩
  · exact .silent (CoreKept.refl _).of_withHostTurn (fieldsKept_refl s)
  · rcases txTake_cases htake with ⟨below, rfl⟩ | ⟨last, rfl⟩
    · exact .take ts k turns sink sending below rfl
    · exact .takeLast ts k turns sink sending last rfl
  · exact .fail ts k turns sink sending rfl

theorem sourceTurn_effect {s t : State} {ts : List Agent} (turns : s.turns = .rxSource :: ts)
    (ht : sourceTurn { s with turns := ts } = .next t) : StepEffect s t := by
  rcases sourceTurn_cases ht with ⟨-, rfl⟩ | ⟨receiving, b, k, source, hdel⟩ | ⟨receiving, k, source, rfl⟩
  · exact .silent (CoreKept.refl _).of_withHostTurn (fieldsKept_refl s)
  · rcases rxDeliver_cases hdel with ⟨below, rfl⟩ | ⟨last, rfl⟩
    · exact .deliver ts b k turns source receiving below rfl
    · exact .deliverLast ts b k turns source receiving last rfl
  · obtain ⟨e, he⟩ := rxTimeout_raises { s with turns := ts, source := k }
    exact .timeout ts k e turns source receiving he

/-- Every step has one of the effects of `StepEffect`. -/
theorem step_effect {s t : State} (h : step s = .next t) : StepEffect s t := by
  rcases step_cases h with ⟨-, rfl⟩ | ⟨a, ts, turns, ha⟩
  · exact .silent (CoreKept.refl _) (fieldsKept_refl _)
  · cases a with
    | host => exact hostTurn_effect turns ha
    | txSink => exact sinkTurn_effect turns ha
    | rxSource => exact sourceTurn_effect turns ha
    | resetInput =>
      injection ha with ha
      exact .hardReset ts turns ha.symm

/-! ### What each effect keeps -/

section
variable {d : Decoded} {s t : State}

theorem CommandEffect.ovr_kept (e : CommandEffect d s t) : t.ovr = s.ovr := by
  cases e <;> next after => rw [after]; rfl

theorem CommandEffect.fieldsKept (e : CommandEffect d s t) : FieldsKept s t := by
  cases e <;> next after => rw [after]; exact fieldsKept_refl s

end

@[simp] theorem rxComplete_phase (s : State) : (rxComplete s).phase = .idle := by rw [rxComplete_eq]; rfl
@[simp] theorem rxComplete_done (s : State) : (rxComplete s).done = true := by rw [rxComplete_eq]; rfl
@[simp] theorem rxComplete_acc (s : State) : (rxComplete s).acc = s.acc := by rw [rxComplete_eq]; rfl
@[simp] theorem rxComplete_ovr (s : State) : (rxComplete s).ovr = s.ovr := by rw [rxComplete_eq]; rfl

/-! ### Which steps change OVR, the fields, PHASE, ACC and FBUF -/

/-- Settles O49: every effect but the two resets keeps OVR or sets it. -/
theorem onlyResetClearsOverrun : Obligations.OnlyResetClearsOverrun := by
  intro s t h hset hclear
  cases step_effect h
  case hardReset ts turns _ => exact .inl ⟨ts, turns⟩
  case softReset ts v h turns host bit _ => exact .inr ⟨ts, v, h, turns, host, bit⟩
  case silent core _ | fieldWrite core => simp [core.ovr, hset] at hclear
  case command effect => simp [effect.ovr_kept, hset] at hclear
  all_goals next after => rw [after] at hclear; simp [hset] at hclear

/-- Settles O50: no command, no stream step and no other host write reaches the twelve fields. -/
theorem onlyFieldWritesAndResetChangeFields : Obligations.OnlyFieldWritesAndResetChangeFields := by
  intro s t h hchanged
  cases step_effect h
  case hardReset ts turns _ => exact .inl ⟨ts, turns⟩
  case softReset ts v h turns host bit _ => exact .inr ⟨ts, 0x00, v, h, turns, host, .inl ⟨rfl, bit⟩⟩
  case fieldWrite ts idx v h turns host range _ => exact .inr ⟨ts, idx, v, h, turns, host, .inr range⟩
  case silent _ fields => exact absurd fields hchanged
  case command effect => exact absurd effect.fieldsKept hchanged
  case deliverLast after => rw [after, rxComplete_eq] at hchanged; exact absurd (fieldsKept_refl s) hchanged
  all_goals next after => rw [after] at hchanged; exact absurd (fieldsKept_refl s) hchanged

/-- Settles O51: of the commands only a started encoder or decoder leaves IDLE, and of the stream's answers only the
completing ones move PHASE. -/
theorem phaseMovesOnlyByCommandsCompletionAndReset : Obligations.PhaseMovesOnlyByCommandsCompletionAndReset := by
  intro s t h hmoved
  cases step_effect h
  case hardReset ts turns after => exact .inr ⟨by rw [after]; rfl, .inr (.inr (.inl ⟨ts, turns⟩))⟩
  case softReset ts v h turns host bit after =>
    exact .inr ⟨by rw [after]; rfl, .inr (.inr (.inr ⟨ts, v, h, turns, host, bit⟩))⟩
  case command ts v h turns host idle effect =>
    refine .inl ⟨idle, ts, v, h, turns, host, ?_⟩
    cases effect
    case encoderStarts i word encoder valid after => exact .inl ⟨by rw [after], i, word, encoder, valid⟩
    case decoderStarts i word decoder after => exact .inr ⟨by rw [after]; rfl, i, word, decoder⟩
    all_goals next after => rw [after] at hmoved; exact absurd idle hmoved
  case takeLast ts k turns _ sending _ after =>
    exact .inr ⟨by rw [after]; rfl, .inl ⟨ts, turns, sending, by rw [after]; rfl⟩⟩
  case fail ts k turns _ sending after =>
    exact .inr ⟨by rw [after]; rfl, .inl ⟨ts, turns, sending, by rw [after]; rfl⟩⟩
  case deliverLast ts b k turns _ receiving _ after =>
    exact .inr ⟨by simp [after], .inr (.inl ⟨ts, turns, receiving, by simp [after]⟩)⟩
  case timeout ts k e turns _ receiving after =>
    exact .inr ⟨by rw [after]; rfl, .inr (.inl ⟨ts, turns, receiving, by rw [after]; rfl⟩)⟩
  case silent core _ | fieldWrite core => exact absurd core.phase.symm hmoved
  case dropped after | take after | deliver after => rw [after] at hmoved; exact absurd rfl hmoved

/-- Settles O52: a failed command and every completion by the stream keep ACC. -/
theorem accChangesOnlyAsListed : Obligations.AccChangesOnlyAsListed := by
  intro s t h hchanged
  cases step_effect h
  case hardReset ts turns _ => exact .inr (.inr (.inr (.inl ⟨ts, turns⟩)))
  case softReset ts v h turns host bit _ => exact .inr (.inr (.inr (.inr ⟨ts, v, h, turns, host, bit⟩)))
  case command ts v h turns host idle effect =>
    refine .inl ⟨ts, v, h, ?_⟩
    cases effect
    case csum i _ word notEncoder _ _ =>
      exact ⟨i, turns, host, idle, word, fun encoder => absurd encoder (by simp [notEncoder])⟩
    case encoderStarts i word _ valid _ => exact ⟨i, turns, host, idle, word, fun _ => valid⟩
    case decoderStarts i word decoder _ =>
      exact ⟨i, turns, host, idle, word, fun encoder => absurd decoder (by simp [not_decoder_of_encoder encoder])⟩
    all_goals next after => rw [after] at hchanged; exact absurd rfl hchanged
  case take ts k turns sink sending below _ => exact .inr (.inl ⟨ts, k, turns, sending, sink, below⟩)
  case deliver ts b k turns source receiving below _ =>
    exact .inr (.inr (.inl ⟨ts, b, k, turns, receiving, source, below⟩))
  case silent core _ | fieldWrite core => exact absurd core.acc hchanged
  case deliverLast after => simp [after] at hchanged
  all_goals next after => rw [after] at hchanged; exact absurd rfl hchanged

/-- Settles O53: of the commands only a started encoder or decoder writes FBUF, and a TAKE writes the checksum alone. -/
theorem fbufChangesOnlyAsListed : Obligations.FbufChangesOnlyAsListed := by
  intro s t h hchanged
  cases step_effect h
  case hardReset ts turns _ => exact .inr (.inr (.inr (.inl ⟨ts, turns⟩)))
  case softReset ts v h turns host bit _ => exact .inr (.inr (.inr (.inr ⟨ts, v, h, turns, host, bit⟩)))
  case command ts v h turns host idle effect =>
    refine .inl ⟨ts, v, h, ?_⟩
    cases effect
    case encoderStarts i word encoder valid _ => exact ⟨i, turns, host, idle, word, .inl ⟨encoder, valid⟩⟩
    case decoderStarts i word decoder _ => exact ⟨i, turns, host, idle, word, .inr decoder⟩
    all_goals next after => rw [after] at hchanged; exact absurd rfl hchanged
  case takeLast ts k turns sink sending last _ => exact .inr (.inl ⟨ts, k, turns, sending, sink, last⟩)
  case deliver ts b k turns source receiving _ _ | deliverLast ts b k turns source receiving _ _ =>
    exact .inr (.inr (.inl ⟨ts, b, k, turns, receiving, source⟩))
  case silent core _ | fieldWrite core => exact absurd core.fbuf hchanged
  all_goals next after => rw [after] at hchanged; exact absurd rfl hchanged

/-! ### The running sum -/

/-- Adding the next byte to the sum of the first `n` gives the sum of the first `n + 1` (40_checksum.md R89). -/
theorem runningSum_succ {acc : Byte} {m : Memory} {n : Nat} (h : acc.toNat = byteSum (frameBytes m n) % 256) :
    (acc + byteAt m n).toNat = byteSum (frameBytes m (n + 1)) % 256 := by
  have hsum : byteSum (frameBytes m (n + 1)) = byteSum (frameBytes m n) + (byteAt m n).toNat := by
    simp [frameBytes_succ, byteSum]
  rw [BitVec.toNat_add, h, hsum]
  omega

/-- A write at or past offset `n` leaves the first `n` bytes. -/
theorem frameBytes_setByte_of_le {m : Memory} {n a : Nat} (b : Byte) (h : n ≤ a) :
    frameBytes (setByte m a b) n = frameBytes m n :=
  frameBytes_congr fun _ hlt => byteAt_setByte_other m b (by omega)

theorem cnt_succ_toNat {c : BitVec 5} (h : c.toNat ≤ 25) : (c + 1).toNat = c.toNat + 1 := by
  rw [BitVec.toNat_add]
  simp
  omega

/-! ### The error flags -/

theorem zero_possible : (0 : BitVec 9) ∈ possibleFlags := by decide

theorem priority_zero : priority 0 = 0 := rfl

theorem errorFlag_possible (e : ErrorCause) : errorFlag e ∈ possibleFlags := by
  cases e <;> decide

theorem errorFlag_ne_zero (e : ErrorCause) : errorFlag e ≠ 0 := by
  cases e <;> decide

theorem priority_errorFlag (e : ErrorCause) : priority (errorFlag e) = errorCode e := by
  cases e <;> decide

theorem flags_zero_of_priority_zero : ∀ f ∈ possibleFlags, priority f = 0 → f = 0 := by
  simp [possibleFlags, priority, lowestFlag]

theorem frameCheckFlags_possible (s : State) : frameCheckFlags s ∈ possibleFlags := by
  unfold frameCheckFlags
  split_ifs <;> decide

theorem frameCheckFlags_eq_zero {s : State} (h : frameCheckFlags s = 0) :
    byteAt s.fbuf 0 = Config.startByte ∧ byteAt s.fbuf 2 = expectedCommand s.lastOp ∧ byteAt s.fbuf 25 = s.acc := by
  have hflag (e : ErrorCause) : ¬ errorFlag e = 0#9 := errorFlag_ne_zero e
  simpa [frameCheckFlags, hflag, and_assoc] using h

/-! ### Legal states -/

/-- Legality is about the core alone. -/
theorem CoreKept.legal {s t : State} (c : CoreKept s t) (h : s.Legal) : t.Legal := by
  obtain ⟨memory, cnt_le, err_reports, flags_possible, running_clean, done_idle, dvalid_iff, sending, receiving,
    decoded⟩ := h
  constructor <;>
    simpa only [c.phase, c.lastOp, c.cnt, c.acc, c.fbuf, c.done, c.dvalid, c.err, c.errf]

/-- No command has completed since the last acceptance or reset, and none has failed. -/
structure Unfinished (s : State) : Prop where
  done : s.done = false
  dvalid : s.dvalid = false
  err : s.err = 0
  errf : s.errf = 0

/-- While BUSY = 1 the command in progress has neither completed nor failed. -/
theorem State.Legal.unfinished_of_busy {s : State} (h : s.Legal) (hp : s.phase ≠ .idle) : Unfinished s := by
  have done : s.done = false := Bool.eq_false_iff.2 fun hd => hp (h.done_idle hd)
  have errf : s.errf = 0 := h.running_clean done
  exact ⟨done, Bool.eq_false_iff.2 fun hd => by simp [(h.dvalid_iff.1 hd).1] at done,
    by rw [h.err_reports, errf, priority_zero], errf⟩

/-- An unfinished state is legal where FBUF and CNT are and the clauses about TX and RX hold. -/
theorem Unfinished.legal {s : State} (u : Unfinished s) (memory : s.fbuf.wf = true) (cnt_le : s.cnt.toNat ≤ 26)
    (sending : s.phase = .tx → isEncoderOp s.lastOp = true ∧ s.cnt.toNat ≤ 25 ∧
      s.acc.toNat = byteSum (frameBytes s.fbuf s.cnt.toNat) % 256 ∧
      byteAt s.fbuf 0 = Config.startByte ∧ byteAt s.fbuf 25 = 0)
    (receiving : s.phase = .rx → isDecoderOp s.lastOp = true ∧ s.cnt.toNat ≤ 25 ∧
      s.acc.toNat = byteSum (frameBytes s.fbuf s.cnt.toNat) % 256 ∧ ∀ a, s.cnt.toNat ≤ a → byteAt s.fbuf a = 0) :
    s.Legal where
  memory := memory
  cnt_le := cnt_le
  err_reports := by rw [u.err, u.errf, priority_zero]
  flags_possible := u.errf ▸ zero_possible
  running_clean _ := u.errf
  done_idle hd := by simp [u.done] at hd
  dvalid_iff := by simp [u.dvalid, u.done]
  sending := sending
  receiving := receiving
  decoded hd := by simp [u.dvalid] at hd

/-- A completion that reports its flags is legal where a decoder completed without a flag holds a checked frame. -/
theorem complete_legal {s : State} {code : BitVec 4} (memory : s.fbuf.wf = true) (cnt_le : s.cnt.toNat ≤ 26)
    (flags : s.errf ∈ possibleFlags) (reports : code = priority s.errf)
    (checked : s.errf = 0 → isDecoderOp s.lastOp = true →
      s.cnt = 26 ∧ byteAt s.fbuf 0 = Config.startByte ∧ byteAt s.fbuf 2 = expectedCommand s.lastOp ∧
      (byteAt s.fbuf 25).toNat = checksum s.fbuf) :
    (s.complete code).Legal where
  memory := memory
  cnt_le := cnt_le
  err_reports := reports
  flags_possible := flags
  running_clean hd := nomatch hd
  done_idle _ := rfl
  dvalid_iff := by simp
  sending hp := nomatch hp
  receiving hp := nomatch hp
  decoded hd := by
    simp only [complete_dvalid, Bool.and_eq_true, beq_iff_eq] at hd
    exact checked (flags_zero_of_priority_zero _ flags (reports ▸ hd.1)) hd.2

/-- A command ended by one error is legal: ERR and ERRF agree, and no frame is decoded. -/
theorem complete_raise_legal {s : State} (e : ErrorCause) {code : BitVec 4} (memory : s.fbuf.wf = true)
    (cnt_le : s.cnt.toNat ≤ 26) (clean : s.errf = 0) (reports : code = errorCode e) :
    ((s.raise e).complete code).Legal := by
  have hf : (s.raise e).errf = errorFlag e := by simp [clean]
  exact complete_legal memory cnt_le (hf ▸ errorFlag_possible e) (by rw [hf, priority_errorFlag, reports])
    fun h0 => absurd (hf ▸ h0) (errorFlag_ne_zero e)

theorem resetSfc_legal (s : State) : s.resetSfc.Legal :=
  Unfinished.legal ⟨rfl, rfl, rfl, rfl⟩ wf_nil (Nat.zero_le _) (fun hp => nomatch hp) (fun hp => nomatch hp)

/-- Every packed frame begins with the start byte (30_encoding.md R74). -/
theorem byteAt_packOf_start {i : Instr} (he : isEncoderOp (opcodeOf i) = true) (s : State) :
    byteAt (packOf i s) 0 = Config.startByte := by
  cases i
  case encSet | encGetReq | encState | encGetResp =>
    simp [packOf, packSet, packGetReq, packState, packGetResp, packHeader, byteAt_zeroFill, byteAt_memWrite]
  all_goals exact nomatch he

/-- Clearing offsets 0 to 25 clears every byte a canonical FBUF holds. -/
theorem byteAt_zeroFill_frame {m : Memory} (h : m.wf = true) (a : Nat) :
    byteAt (zeroFill m 0 Config.frameLen) a = 0 := by
  rw [byteAt_zeroFill]
  split
  · rfl
  · exact byteAt_past_frame h (by omega)

/-- An encoder that starts to send has packed its header, and its checksum byte is clear (41_encode.md R95). -/
theorem encoderStart_legal {i : Instr} {s : State} (memory : s.fbuf.wf = true)
    (encoder : isEncoderOp (opcodeOf i) = true) :
    State.Legal { s.accept (opcodeOf i) with
      fbuf := setByte (packOf i (s.accept (opcodeOf i))) 25 0, acc := 0, cnt := 0, phase := .tx } := by
  have packed : (packOf i (s.accept (opcodeOf i))).wf = true := wf_packOf i memory
  have start : byteAt (setByte (packOf i (s.accept (opcodeOf i))) 25 0) 0 = Config.startByte :=
    (byteAt_setByte_other _ 0 (by decide)).trans (byteAt_packOf_start encoder _)
  have clear := byteAt_setByte_same (packOf i (s.accept (opcodeOf i))) 25 0
  exact Unfinished.legal ⟨rfl, rfl, rfl, rfl⟩ (wf_setByte packed 0 (by decide)) (Nat.zero_le _)
    (fun _ => ⟨encoder, Nat.zero_le _, rfl, start, clear⟩) (fun hp => nomatch hp)

/-- A decoder that starts to receive has cleared FBUF (42_decode.md R103). -/
theorem decAccept_legal {s : State} (memory : s.fbuf.wf = true) (u : Unfinished s)
    (decoder : isDecoderOp s.lastOp = true) : (decAccept s).Legal := by
  have cleared : (zeroFill s.fbuf 0 Config.frameLen).wf = true := wf_zeroFill _ memory 0 le_rfl
  have zero := byteAt_zeroFill_frame memory
  unfold decAccept
  generalize zeroFill s.fbuf 0 Config.frameLen = m at cleared zero ⊢
  exact Unfinished.legal { u with } cleared (Nat.zero_le _) (fun hp => nomatch hp)
    (fun _ => ⟨decoder, Nat.zero_le _, rfl, fun a _ => zero a⟩)

theorem CommandEffect.legal {d : Decoded} {s t : State} (e : CommandEffect d s t) (h : s.Legal) : t.Legal := by
  cases e
  case illegal opc _ after =>
    rw [after]
    exact complete_raise_legal _ h.memory h.cnt_le rfl rfl
  case csum i a _ _ notDecoder after =>
    rw [after]
    exact complete_legal h.memory h.cnt_le zero_possible priority_zero.symm fun _ hd => by simp [notDecoder] at hd
  case encoderFails i f _ encoder flags after =>
    rw [after]
    exact complete_legal h.memory h.cnt_le flags rfl fun _ hd => by simp [not_decoder_of_encoder encoder] at hd
  case encoderStarts i _ encoder _ after =>
    rw [after]
    exact encoderStart_legal h.memory encoder
  case decoderStarts i _ decoder after =>
    rw [after]
    exact decAccept_legal h.memory ⟨rfl, rfl, rfl, rfl⟩ decoder

/-- The frame checks complete legally where CNT is 26, no flag was set and ACC is the checksum of bytes 0 to 24. -/
theorem rxComplete_legal {s : State} (memory : s.fbuf.wf = true) (cnt : s.cnt = 26) (clean : s.errf = 0)
    (sum : s.acc.toNat = checksum s.fbuf) : (rxComplete s).Legal := by
  have hf : s.errf ||| frameCheckFlags s = frameCheckFlags s := by simp [clean]
  rw [rxComplete_eq, hf]
  refine complete_legal memory (by simp [cnt]) (frameCheckFlags_possible s) rfl fun h0 _ => ?_
  obtain ⟨hstart, hcommand, hchecksum⟩ := frameCheckFlags_eq_zero h0
  exact ⟨cnt, hstart, hcommand, hchecksum ▸ sum⟩

theorem dropCommand_legal {s : State} (h : s.Legal) : s.dropCommand.Legal := { h with }

/-- A byte taken below offset 25 joins the sum. -/
theorem take_legal {s : State} {ts : List Agent} {k : List TxAnswer} {trace : List Byte} (h : s.Legal)
    (hp : s.phase = .tx) (below : s.cnt.toNat < 25) :
    State.Legal { s with
      turns := ts, sink := k, txTrace := trace, acc := s.acc + byteAt s.fbuf s.cnt.toNat, cnt := s.cnt + 1 } := by
  obtain ⟨encoder, hle, sum, start, clear⟩ := h.sending hp
  have hcnt := cnt_succ_toNat hle
  have u := h.unfinished_of_busy (by simp [hp])
  refine Unfinished.legal { u with } h.memory ?_ (fun _ => ⟨encoder, ?_, ?_, start, clear⟩)
    (fun hrx => nomatch hp.symm.trans hrx) <;> simp only [hcnt]
  · omega
  · omega
  · exact runningSum_succ sum

/-- A byte delivered below offset 25 is stored at CNT and joins the sum. -/
theorem deliver_legal {s : State} {ts : List Agent} {b : Byte} {k : List RxAnswer} (h : s.Legal)
    (hp : s.phase = .rx) (below : s.cnt.toNat < 25) :
    State.Legal { s with
      turns := ts, source := k, fbuf := setByte s.fbuf s.cnt.toNat b, acc := s.acc + b, cnt := s.cnt + 1 } := by
  obtain ⟨decoder, hle, sum, clear⟩ := h.receiving hp
  have hcnt := cnt_succ_toNat hle
  have u := h.unfinished_of_busy (by simp [hp])
  refine Unfinished.legal { u with } (wf_setByte h.memory b (by simp only [Config.frameLen]; omega)) ?_
    (fun htx => nomatch hp.symm.trans htx) (fun _ => ⟨decoder, ?_, ?_, fun a ha => ?_⟩) <;> simp only [hcnt] at *
  · omega
  · omega
  · rw [← frameBytes_setByte_of_le b le_rfl] at sum
    simpa using runningSum_succ sum
  · rw [byteAt_setByte_other _ _ (by omega)]
    exact clear a (by omega)

/-- The last byte delivered is stored at offset 25, outside the sum, and the frame is checked. -/
theorem deliverLast_legal {s : State} {ts : List Agent} {b : Byte} {k : List RxAnswer} (h : s.Legal)
    (hp : s.phase = .rx) (last : s.cnt.toNat = 25) :
    (rxComplete { s with
      turns := ts, source := k, fbuf := setByte s.fbuf s.cnt.toNat b, cnt := s.cnt + 1 }).Legal := by
  obtain ⟨-, -, sum, -⟩ := h.receiving hp
  have hcnt : s.cnt = 25 := BitVec.eq_of_toNat_eq last
  refine rxComplete_legal (wf_setByte h.memory b (by simp [last, Config.frameLen])) (by simp [hcnt])
    (h.unfinished_of_busy (by simp [hp])).errf ?_
  rw [← frameBytes_setByte_of_le b le_rfl] at sum
  simpa only [checksum, last] using sum

/-- Settles O47, by the effect of the step. -/
theorem everyStepKeepsTheStateLegal : Obligations.EveryStepKeepsTheStateLegal := by
  intro s t h hstep
  cases step_effect hstep
  case silent core _ | fieldWrite core => exact core.legal h
  case hardReset after | softReset after => rw [after]; exact resetSfc_legal _
  case dropped after => rw [after]; exact dropCommand_legal { h with }
  case command effect => exact effect.legal { h with }
  case take sending below after => rw [after]; exact take_legal h sending below
  case takeLast sending _ after =>
    obtain ⟨encoder, -⟩ := h.sending sending
    have clean := (h.unfinished_of_busy (by simp [sending])).errf
    rw [after]
    exact complete_legal (wf_setByte h.memory s.acc (by decide)) (by simp) (clean ▸ zero_possible)
      (clean ▸ priority_zero.symm) fun _ hd => by simp [not_decoder_of_encoder encoder] at hd
  case fail sending after =>
    rw [after]
    exact complete_raise_legal .streamWriteFailure h.memory h.cnt_le
      (h.unfinished_of_busy (by simp [sending])).errf rfl
  case deliver receiving below after => rw [after]; exact deliver_legal h receiving below
  case deliverLast receiving last after => rw [after]; exact deliverLast_legal h receiving last
  case timeout e _ _ receiving after =>
    have clean := (h.unfinished_of_busy (by simp [receiving])).errf
    rw [after]
    exact complete_raise_legal e h.memory h.cnt_le clean (by simp [clean, priority_errorFlag])

/-! ### The reset state -/

theorem readReg_reset (r : Reg) : readReg r State.reset = 0 := by
  cases r <;> rfl

/-- Settles O43: the registers read fields and bytes that are all zero. -/
theorem resetStateIsAllZero : Obligations.ResetStateIsAllZero :=
  ⟨rfl, rfl, rfl, rfl, byteAt_nil, rfl, rfl, rfl, rfl, rfl, readReg_reset⟩

/-- Settles O46: the reset state is what resetting it gives. -/
theorem resetStateIsLegal : Obligations.ResetStateIsLegal := resetSfc_legal State.reset

end Sys2Proof.Machine

/-!
The registers and the streams (20_memory.md): what a host read or write of an index does, what the STATUS, ERRF, ACC
and FBUF registers read, the lines of the assembler, what one answered turn of a stream side does, and that 26 answers
end a frame.
-/

namespace Sys2Proof.Machine

/-! ### The host's turn -/

theorem step_host_write {s : State} {ts : List Agent} {idx : RegIndex} {v : Word} {h : List HostOp}
    (turns : s.turns = .host :: ts) (host : s.host = .wr idx v :: h) :
    step s = hostWrite idx v { s with turns := ts, host := h } := by
  simp only [step_of_turns_cons turns, agentTurn, hostTurn, host]

theorem step_host_read {s : State} {ts : List Agent} {idx : RegIndex} {h : List HostOp}
    (turns : s.turns = .host :: ts) (host : s.host = .rd idx :: h) :
    step s = .next (hostRead idx { s with turns := ts, host := h }) := by
  simp only [step_of_turns_cons turns, agentTurn, hostTurn, host]

theorem presentCommand_of_instr {v : Word} {i : Instr} (h : decode v = .instr i) (s : State) :
    presentCommand v s = exec i s := by
  simp only [presentCommand, h]

/-- Where the host's next transaction writes a word to CMD that decodes to `i`, its step runs `i`
(20_memory.md R53, 30_encoding.md R71). -/
theorem step_command {s : State} {ts : List Agent} {v : Word} {h : List HostOp} {i : Instr}
    (turns : s.turns = .host :: ts) (host : s.host = .wr (regIndex .cmd) v :: h) (hv : decode v = .instr i) :
    step s = exec i { s with turns := ts, host := h } := by
  rw [step_host_write turns host, hostWrite_regIndex, writeReg, presentCommand_of_instr hv]

/-- Settles O5: both ways of placing the CMD write come to `step_command`. -/
theorem stepRunsTheDecodedCommand : Obligations.StepRunsTheDecodedCommand := by
  refine ⟨fun s ts h v i turns host hv _ => step_command turns host hv, fun s w i hw => ?_⟩
  have low : BitVec.ofNat 32 (w % 2 ^ 32) = BitVec.ofNat 32 w := BitVec.eq_of_toNat_eq (by simp)
  have hv : decode (BitVec.ofNat 32 (w % 2 ^ 32)) = .instr i := low ▸ hw
  exact step_command (s := s.withFetchWord 32 w) rfl rfl hv

/-! ### Writes of the named registers -/

/-- A write of a register other than CTRL and CMD is a field write. -/
theorem hostWrite_writeField {r : Reg} (hctrl : r ≠ .ctrl) (hcmd : r ≠ .cmd) (v : Word) (s : State) :
    hostWrite (regIndex r) v s = .next (writeField r v s) := by
  rw [hostWrite_regIndex]
  unfold writeReg
  split
  · exact absurd rfl hctrl
  · exact absurd rfl hcmd
  · rfl

theorem writeField_outsideKept (r : Reg) (v : Word) (s : State) : OutsideKept s (writeField r v s) := by
  cases r <;> exact ⟨rfl, rfl, rfl, rfl, rfl, rfl⟩

/-- A field write is read back at that register alone. -/
theorem readReg_writeField_other {r r' : Reg} (h : r' ≠ r) (v : Word) (s : State) :
    readReg r' (writeField r v s) = readReg r' s := by
  cases r
  case fAddr | fNewAddr | fKind | fValue | fMaxI | fMaxP | fState | fCurrent | fVoltage | fPower | fRes | fGStatus =>
    cases r' <;> first | exact absurd rfl h | rfl
  all_goals rfl

/-- Cutting a word to `k` bits and extending it again is masking it with `k` ones (20_memory.md R49). -/
theorem setWidth_setWidth_eq_and (v : Word) {k : Nat} (hk : k ≤ 32) :
    (v.setWidth k).setWidth 32 = v &&& BitVec.ofNat 32 (2 ^ k - 1) := by
  apply BitVec.eq_of_toNat_eq
  have hpow : 2 ^ k ≤ 2 ^ 32 := Nat.pow_le_pow_right (by decide) hk
  have hpos : 0 < 2 ^ k := Nat.two_pow_pos k
  have hcut : v.toNat % 2 ^ k < 2 ^ k := Nat.mod_lt _ hpos
  rw [BitVec.toNat_and, BitVec.toNat_setWidth, BitVec.toNat_setWidth, BitVec.toNat_ofNat,
    Nat.mod_eq_of_lt (a := 2 ^ k - 1) (by omega), Nat.and_two_pow_sub_one_eq_mod, Nat.mod_eq_of_lt (by omega)]

/-- A field register reads what was written under its mask (20_memory.md R49). -/
theorem readReg_writeField_same {r : Reg} {m : Word} (hm : (r, m) ∈ fieldMasks) (v : Word) (s : State) :
    readReg r (writeField r v s) = v &&& m := by
  simp only [fieldMasks, List.mem_cons, Prod.mk.injEq, List.not_mem_nil, or_false] at hm
  have cut8 := setWidth_setWidth_eq_and v (k := 8) (by decide)
  have cut16 := setWidth_setWidth_eq_and v (k := 16) (by decide)
  have cut2 := setWidth_setWidth_eq_and v (k := 2) (by decide)
  have cut6 := setWidth_setWidth_eq_and v (k := 6) (by decide)
  have whole : v = v &&& BitVec.allOnes 32 := BitVec.and_allOnes.symm
  rcases hm with ⟨rfl, rfl⟩ | ⟨rfl, rfl⟩ | ⟨rfl, rfl⟩ | ⟨rfl, rfl⟩ | ⟨rfl, rfl⟩ | ⟨rfl, rfl⟩ | ⟨rfl, rfl⟩ |
    ⟨rfl, rfl⟩ | ⟨rfl, rfl⟩ | ⟨rfl, rfl⟩ | ⟨rfl, rfl⟩ | ⟨rfl, rfl⟩
  exacts [cut8, cut8, cut8, cut16, cut16, cut16, cut2, cut16, whole, cut16, cut16, cut6]

theorem fieldMasks_writable : ∀ p ∈ fieldMasks, p.1 ≠ .ctrl ∧ p.1 ≠ .cmd := by decide

/-- Settles O33: a write of a field register is `writeField`, whose frame is said register by register. -/
theorem fieldWritesAreMasked : Obligations.FieldWritesAreMasked := by
  refine ⟨fun v s => ?_, fun s => ?_, fun r m v s hm => ?_⟩
  · exact ⟨hostWrite_regIndex .fAddr v s, hostWrite_regIndex .fNewAddr v s, hostWrite_regIndex .fKind v s,
      hostWrite_regIndex .fValue v s, hostWrite_regIndex .fMaxI v s, hostWrite_regIndex .fMaxP v s,
      hostWrite_regIndex .fState v s, hostWrite_regIndex .fCurrent v s, hostWrite_regIndex .fVoltage v s,
      hostWrite_regIndex .fPower v s, hostWrite_regIndex .fRes v s, hostWrite_regIndex .fGStatus v s⟩
  · exact ⟨readIndex_regIndex .fAddr s, readIndex_regIndex .fNewAddr s, readIndex_regIndex .fKind s,
      readIndex_regIndex .fValue s, readIndex_regIndex .fMaxI s, readIndex_regIndex .fMaxP s,
      readIndex_regIndex .fState s, readIndex_regIndex .fCurrent s, readIndex_regIndex .fVoltage s,
      readIndex_regIndex .fPower s, readIndex_regIndex .fRes s, readIndex_regIndex .fGStatus s⟩
  · obtain ⟨hctrl, hcmd⟩ := fieldMasks_writable _ hm
    have core := writeField_coreKept r v s
    exact ⟨writeField r v s, hostWrite_writeField hctrl hcmd v s,
      (readIndex_regIndex r _).trans (readReg_writeField_same hm v s),
      fun r' hr' => readReg_writeField_other hr' v s, core.phase, core.fbuf, core.acc, core.cnt,
      writeField_outsideKept r v s⟩

theorem readOnlyRegs_not_writable : ∀ r ∈ readOnlyRegs,
    r ≠ .ctrl ∧ r ≠ .cmd ∧ ¬ (0x05 ≤ (regIndex r).toNat ∧ (regIndex r).toNat ≤ 0x10) := by decide

/-- Settles O35: a read-only register is neither CTRL nor CMD, and its index is no field's. -/
theorem readOnlyRegistersIgnoreWrites : Obligations.ReadOnlyRegistersIgnoreWrites := by
  intro r v s hr
  obtain ⟨hctrl, hcmd, hrange⟩ := readOnlyRegs_not_writable r hr
  rw [hostWrite_writeField hctrl hcmd, writeField_of_not_field hrange]

/-- Settles O34: no register stands at a reserved index. -/
theorem reservedIndexesReadZeroAndIgnoreWrites : Obligations.ReservedIndexesReadZeroAndIgnoreWrites := by
  intro idx v s h
  have unnamed := (regAt_eq_none_iff idx).2 h
  exact ⟨by rw [readIndex, unnamed], by rw [hostWrite, unnamed]⟩

/-- Settles O45: a write of CTRL is `writeCtrl`, which looks at bit 0 alone. -/
theorem ctrlWriteIsTheSoftReset : Obligations.CtrlWriteIsTheSoftReset := by
  intro v s
  have hw : hostWrite 0x00 v s = .next (writeCtrl v s) := hostWrite_regIndex .ctrl v s
  refine ⟨fun hset => ?_, fun hclear => ?_, readIndex_regIndex .ctrl s, readIndex_regIndex .cmd s⟩
  · rw [hw, writeCtrl, if_pos hset, State.resetSfc]
  · rw [hw, writeCtrl, if_neg (Bool.eq_false_iff.1 hclear)]

/-! ### Reads of the named registers -/

/-- No register shows the turns and the transactions to come. -/
theorem readIndex_withHostTurn (idx : RegIndex) (s : State) (ts : List Agent) (h : List HostOp) :
    readIndex idx { s with turns := ts, host := h } = readIndex idx s := by
  unfold readIndex
  split
  · next r _ => cases r <;> rfl
  · rfl

/-- Settles O36: a read joins the record, and what it reads does not depend on the turn it takes. -/
theorem hostReadOnlyRecordsTheValue : Obligations.HostReadOnlyRecordsTheValue := by
  intro s ts idx h turns host
  rw [step_host_read turns host, hostRead, readIndex_withHostTurn]

/-- STATUS is the append of its parts, the width of each written out; a part is found by passing over the parts below it
(20_memory.md R46). -/
theorem statusWord_parts (s : State) (w : BitVec (8 + 8 + 3 + 5 + 4 + 1 + 1 + 1 + 1))
    (hw : w = 0#8 ++ s.lastOp ++ 0#3 ++ s.cnt ++ s.err ++ BitVec.ofBool s.ovr ++ BitVec.ofBool s.dvalid
      ++ BitVec.ofBool s.done ++ BitVec.ofBool s.busy) :
    w.getLsbD 0 = s.busy ∧ w.getLsbD 1 = s.done ∧ w.getLsbD 2 = s.dvalid ∧ w.getLsbD 3 = s.ovr ∧
    w.extractLsb' 4 4 = s.err ∧ w.extractLsb' 8 5 = s.cnt ∧ w.extractLsb' 13 3 = 0 ∧
    w.extractLsb' 16 8 = s.lastOp ∧ w.extractLsb' 24 8 = 0 := by
  subst hw
  refine ⟨?_, ?_, ?_, ?_, ?_, ?_, ?_, ?_, ?_⟩
  case refine_1 | refine_2 | refine_3 | refine_4 =>
    simp only [BitVec.getLsbD_append]
    simp
  all_goals
    simp only [BitVec.extractLsb'_append_eq_ite]
    simp

/-- Settles O37, by the layout of STATUS; ERRF and ACC are narrower than a register. -/
theorem statusErrfAndAccRegisters : Obligations.StatusErrfAndAccRegisters := by
  intro s
  have status : readIndex 0x02 s = statusWord s := readIndex_regIndex .status s
  have errf : readIndex 0x03 s = s.errf.setWidth 32 := readIndex_regIndex .errf s
  have acc : readIndex 0x04 s = s.acc.setWidth 32 := readIndex_regIndex .acc s
  refine ⟨?_, ?_, ?_⟩
  · rw [status]
    exact statusWord_parts s (statusWord s) rfl
  · rw [errf, BitVec.toNat_setWidth_of_le (by decide)]
  · rw [acc, BitVec.toNat_setWidth_of_le (by decide)]

/-- Byte `j` of a little-endian number is the byte at offset `a + j` (00_scope.md R9). -/
theorem memRead_byte (m : Memory) (n : Nat) : ∀ (a j : Nat), j < n →
    memRead m a n / 256 ^ j % 256 = (byteAt m (a + j)).toNat := by
  induction n with
  | zero => intro a j h; exact absurd h (Nat.not_lt_zero j)
  | succ n ih =>
    intro a j h
    have hb : (byteAt m a).toNat < 256 := (byteAt m a).isLt
    cases j with
    | zero => rw [memRead, pow_zero, Nat.div_one, add_zero]; omega
    | succ j =>
      have hdrop : memRead m a (n + 1) / 256 = memRead m (a + 1) n := by rw [memRead]; omega
      rw [pow_succ', ← Nat.div_div_eq_div_mul, hdrop, ih (a + 1) j (by omega), Nat.add_right_comm, Nat.add_assoc]

theorem fbufField_toNat (m : Memory) (a : Nat) {n : Nat} (hn : n ≤ 4) : (fbufField m a n).toNat = memRead m a n := by
  have hlt := memRead_lt n m a
  have hpow : 256 ^ n ≤ 256 ^ 4 := Nat.pow_le_pow_right (by decide) hn
  rw [fbufField, BitVec.toNat_ofNat, Nat.mod_eq_of_lt (by omega)]

/-- A register of `n` bytes of FBUF shows each of them in its place (20_memory.md R50). -/
theorem fbufField_byte (m : Memory) (a : Nat) {n j : Nat} (hn : n ≤ 4) (hj : j < n) :
    (fbufField m a n).extractLsb' (8 * j) 8 = byteAt m (a + j) := by
  apply BitVec.eq_of_toNat_eq
  rw [BitVec.extractLsb'_toNat, fbufField_toNat m a hn, Nat.shiftRight_eq_div_pow, pow_mul]
  exact memRead_byte m n a j hj

/-- FBUF0 to FBUF5 at their indexes (20_memory.md R43, R50). -/
theorem readIndex_fbuf (s : State) {k : Nat} (hk : k < 6) :
    readIndex (BitVec.ofNat 6 (0x11 + k)) s = fbufField s.fbuf (4 * k) 4 := by
  interval_cases k <;> rfl

/-- Settles O38: the FBUF registers are little-endian numbers of FBUF's bytes. -/
theorem fbufRegistersPackTheFrame : Obligations.FbufRegistersPackTheFrame := by
  intro s
  have last : readIndex 0x17 s = fbufField s.fbuf 24 2 := readIndex_regIndex .fbuf6 s
  refine ⟨fun k hk j hj => ?_, ?_, ?_, ?_⟩
  · rw [readIndex_fbuf s hk]
    exact fbufField_byte s.fbuf (4 * k) le_rfl hj
  · rw [last]
    exact fbufField_byte s.fbuf 24 (n := 2) (j := 0) (by decide) (by decide)
  · rw [last]
    exact fbufField_byte s.fbuf 24 (n := 2) (j := 1) (by decide) (by decide)
  · have hlt := memRead_lt 2 s.fbuf 24
    apply BitVec.eq_of_toNat_eq
    rw [last, BitVec.extractLsb'_toNat, fbufField_toNat s.fbuf 24 (by decide), Nat.shiftRight_eq_div_pow,
      Nat.div_eq_of_lt (by omega)]
    rfl

/-! ### The lines of the assembler -/

theorem ofNat32_toNat {n : Nat} (h : n < 2 ^ 32) : (BitVec.ofNat 32 n).toNat = n := by
  rw [BitVec.toNat_ofNat, Nat.mod_eq_of_lt h]

/-- The word of CSUM.ADD: its byte in bits 15:8 and the opcode below it (30_encoding.md R68, R69). -/
theorem encode_csumAdd_toNat (b : Byte) : (encode (.csumAdd b)).toNat = b.toNat * 256 + 2 := by
  change (0#16 ++ b ++ 2#8 : BitVec (16 + 8 + 8)).toNat = _
  rw [BitVec.toNat_append, BitVec.toNat_append, ← Nat.shiftLeft_add_eq_or_of_lt (by decide), Nat.shiftLeft_eq]
  simp

/-- Settles O41, line by line. -/
theorem linesStandForTheirTransactions : Obligations.LinesStandForTheirTransactions := by
  refine ⟨rfl, fun _ => rfl, fun r imm h => ⟨_, ofNat32_toNat h, rfl⟩, rfl, fun b => ⟨_, encode_csumAdd_toNat b, rfl⟩,
    rfl, rfl, rfl, rfl, rfl, rfl, rfl, rfl, fun _ => rfl, rfl, rfl,
    fun kind value hk hv => ⟨_, _, ofNat32_toNat hk, ofNat32_toNat hv, rfl⟩, fun remote enabled => ?_⟩
  cases remote <;> cases enabled <;> rfl

/-! ### One answered turn of a stream side -/

/-- Settles O54: a stream side is enabled in its own phase alone. -/
theorem streamSidesWaitForTheirPhase : Obligations.StreamSidesWaitForTheirPhase := by
  rintro s ts (⟨turns, hp⟩ | ⟨turns, hp⟩)
  · rw [step_of_turns_cons turns, agentTurn, sinkTurn, if_neg hp]
  · rw [step_of_turns_cons turns, agentTurn, sourceTurn, if_neg hp]

section
variable {s : State} {ts : List Agent}

theorem step_take {k : List TxAnswer} (turns : s.turns = .txSink :: ts) (sink : s.sink = .take :: k)
    (sending : s.phase = .tx) : step s = txTake { s with turns := ts, sink := k } := by
  rw [step_of_turns_cons turns, agentTurn, sinkTurn_take (s := { s with turns := ts }) sending sink]

theorem step_fail {k : List TxAnswer} (turns : s.turns = .txSink :: ts) (sink : s.sink = .fail :: k)
    (sending : s.phase = .tx) : step s = .next (txFail { s with turns := ts, sink := k }) := by
  simp only [step_of_turns_cons turns, agentTurn, sinkTurn, sending, sink, if_true]

theorem step_deliver {b : Byte} {k : List RxAnswer} (turns : s.turns = .rxSource :: ts)
    (source : s.source = .deliver b :: k) (receiving : s.phase = .rx) :
    step s = rxDeliver b { s with turns := ts, source := k } := by
  rw [step_of_turns_cons turns, agentTurn, sourceTurn_deliver (s := { s with turns := ts }) receiving source]

theorem step_timeout {k : List RxAnswer} (turns : s.turns = .rxSource :: ts) (source : s.source = .timeout :: k)
    (receiving : s.phase = .rx) : step s = .next (rxTimeout { s with turns := ts, source := k }) := by
  simp only [step_of_turns_cons turns, agentTurn, sourceTurn, receiving, source, if_true]

end

@[simp] theorem rxTimeout_phase (s : State) : (rxTimeout s).phase = .idle := by
  obtain ⟨e, he⟩ := rxTimeout_raises s
  rw [he, complete_phase]

@[simp] theorem rxTimeout_done (s : State) : (rxTimeout s).done = true := by
  obtain ⟨e, he⟩ := rxTimeout_raises s
  rw [he, complete_done]

theorem add_eq_ofNat_mod (a b : Byte) : a + b = BitVec.ofNat 8 ((a.toNat + b.toNat) % 256) :=
  BitVec.eq_of_toNat_eq (by simp)

/-- Settles O17: below offset 25 the byte at CNT is sent and summed, and at 25 the sum is sent and stored. -/
theorem takeSendsTheOfferedByte : Obligations.TakeSendsTheOfferedByte := by
  intro s ts k turns sink sending
  refine ⟨fun below => ?_, fun last => ⟨_, (step_take turns sink sending).trans (txTake_last last), rfl, ?_, ?_⟩⟩
  · rw [step_take turns sink sending, txTake_below (s := { s with turns := ts, sink := k }) below, add_eq_ofNat_mod]
  · exact byteAt_setByte_same s.fbuf 25 s.acc
  · exact fun a ha => byteAt_setByte_other s.fbuf s.acc (Ne.symm ha)

/-! ### An answered frame ends -/

/-- The command in progress has completed (60_exceptions.md R118). -/
def Ended (t : State) : Prop := t.phase = .idle ∧ t.done = true

/-- A countdown `P` that each step lowers by 1, or ends the command, ends it within its count. -/
theorem ends_within_countdown {P : Nat → State → Prop}
    (progress : ∀ n s, P n s → ∃ t, step s = .next t ∧ (Ended t ∨ ∃ m, n = m + 1 ∧ P m t)) (n : Nat) :
    ∀ s, P n s → ∃ k t, k ≤ n + 1 ∧ runSteps k s = .next t ∧ Ended t := by
  induction n with
  | zero =>
    intro s h
    obtain ⟨t, hstep, hend | ⟨m, hm, -⟩⟩ := progress 0 s h
    · exact ⟨1, t, le_rfl, runSteps_succ hstep, hend⟩
    · exact absurd hm (Nat.zero_ne_add_one m)
  | succ n ih =>
    intro s h
    obtain ⟨t, hstep, hend | ⟨m, hm, ht⟩⟩ := progress (n + 1) s h
    · exact ⟨1, t, by omega, runSteps_succ hstep, hend⟩
    · obtain rfl : n = m := Nat.succ.inj hm
      obtain ⟨k, u, hk, hrun, hend⟩ := ih t ht
      exact ⟨k + 1, u, by omega, (runSteps_succ hstep).trans hrun, hend⟩

/-- An encoder has `n` bytes and the checksum still to send, to a sink that moves next and answers so often. -/
structure SendsNext (n : Nat) (s : State) : Prop where
  sending : s.phase = .tx
  cnt : s.cnt.toNat + n = 25
  turns : ∃ ts, s.turns = List.replicate (n + 1) .txSink ++ ts
  answers : n + 1 ≤ s.sink.length

/-- A decoder has `n` bytes and the checksum still to receive, from a source that moves next and answers so often. -/
structure ReceivesNext (n : Nat) (s : State) : Prop where
  receiving : s.phase = .rx
  cnt : s.cnt.toNat + n = 25
  turns : ∃ ts, s.turns = List.replicate (n + 1) .rxSource ++ ts
  answers : n + 1 ≤ s.source.length

/-- A FAIL and the TAKE of the checksum end the encoder, and another TAKE leaves one byte fewer. -/
theorem SendsNext.progress {n : Nat} {s : State} (h : SendsNext n s) :
    ∃ t, step s = .next t ∧ (Ended t ∨ ∃ m, n = m + 1 ∧ SendsNext m t) := by
  obtain ⟨sending, cnt, ⟨ts, turns⟩, answers⟩ := h
  rw [List.replicate_succ, List.cons_append] at turns
  match sink : s.sink, n with
  | [], _ => simp [sink] at answers
  | .fail :: k, _ => exact ⟨_, step_fail turns sink sending, .inl ⟨rfl, rfl⟩⟩
  | .take :: k, 0 => exact ⟨_, (step_take turns sink sending).trans (txTake_last cnt), .inl ⟨rfl, rfl⟩⟩
  | .take :: k, m + 1 =>
    have below : s.cnt.toNat < 25 := by omega
    have counted := cnt_succ_toNat below.le
    refine ⟨_, (step_take turns sink sending).trans (txTake_below below), .inr ⟨m, rfl, sending, ?_, ⟨ts, rfl⟩, ?_⟩⟩
    · simp only [counted]; omega
    · simpa [sink] using answers

/-- A TIMEOUT and the 26th DELIVER end the decoder, and another DELIVER leaves one byte fewer. -/
theorem ReceivesNext.progress {n : Nat} {s : State} (h : ReceivesNext n s) :
    ∃ t, step s = .next t ∧ (Ended t ∨ ∃ m, n = m + 1 ∧ ReceivesNext m t) := by
  obtain ⟨receiving, cnt, ⟨ts, turns⟩, answers⟩ := h
  rw [List.replicate_succ, List.cons_append] at turns
  match source : s.source, n with
  | [], _ => simp [source] at answers
  | .timeout :: k, _ =>
    exact ⟨_, step_timeout turns source receiving, .inl ⟨rxTimeout_phase _, rxTimeout_done _⟩⟩
  | .deliver b :: k, 0 =>
    exact ⟨_, (step_deliver turns source receiving).trans (rxDeliver_last cnt),
      .inl ⟨rxComplete_phase _, rxComplete_done _⟩⟩
  | .deliver b :: k, m + 1 =>
    have below : s.cnt.toNat < 25 := by omega
    have counted := cnt_succ_toNat below.le
    refine ⟨_, (step_deliver turns source receiving).trans (rxDeliver_below below),
      .inr ⟨m, rfl, receiving, ?_, ⟨ts, rfl⟩, ?_⟩⟩
    · simp only [counted]; omega
    · simpa [source] using answers

/-- Of 26 turns of one side, the first `n + 1` are its own. -/
theorem replicate_26_split {n : Nat} (hn : n ≤ 25) (a : Agent) (ts : List Agent) :
    ∃ us, List.replicate 26 a ++ ts = List.replicate (n + 1) a ++ us :=
  ⟨List.replicate (25 - n) a ++ ts, by
    rw [← List.append_assoc, List.replicate_append_replicate, show n + 1 + (25 - n) = 26 by omega]⟩

/-- Settles O55: in a legal state CNT is at most 25, and the bytes left count down. -/
theorem answeredFramesEndWithin26Steps : Obligations.AnsweredFramesEndWithin26Steps := by
  intro s ts legal
  refine ⟨fun sending turns answers => ?_, fun receiving turns answers => ?_⟩
  · obtain ⟨-, hle, -⟩ := legal.sending sending
    have start : SendsNext (25 - s.cnt.toNat) s :=
      ⟨sending, by omega, turns ▸ replicate_26_split (by omega) _ ts, by omega⟩
    obtain ⟨k, t, hk, hrun, hidle, hdone⟩ := ends_within_countdown (fun _ _ => SendsNext.progress) _ s start
    exact ⟨k, t, by omega, hrun, hidle, hdone⟩
  · obtain ⟨-, hle, -⟩ := legal.receiving receiving
    have start : ReceivesNext (25 - s.cnt.toNat) s :=
      ⟨receiving, by omega, turns ▸ replicate_26_split (by omega) _ ts, by omega⟩
    obtain ⟨k, t, hk, hrun, hidle, hdone⟩ := ends_within_countdown (fun _ _ => ReceivesNext.progress) _ s start
    exact ⟨k, t, by omega, hrun, hidle, hdone⟩

end Sys2Proof.Machine

/-!
The commands' family (30_encoding.md): what the decoder makes of a word, what a CMD write does while busy and with an
unlisted opcode, the polls of `wait`, and the runs of `csum` and `query` from an idle SFC.
-/

namespace Sys2Proof.Machine

/-! ### The decoder -/

/-- A word that decodes to a command has its opcode and carries its byte (30_encoding.md R68 to R70). -/
theorem fields_of_decode {v : Word} {i : Instr} (h : decode v = .instr i) :
    opcField v = opcodeOf i ∧ ∀ b, i = .csumAdd b → dataField v = b := by
  unfold decode at h
  split at h
  case h_2 hopc =>
    cases h
    exact ⟨hopc, fun b hb => Instr.csumAdd.inj hb⟩
  case h_10 => cases h
  all_goals
    next hopc =>
    cases h
    exact ⟨hopc, fun _ hb => nomatch hb⟩

/-- The opcode, and CSUM.ADD's byte, are all the decoder reads of a word of the opcode map. -/
theorem decode_of_fields {v : Word} {i : Instr} (hopc : opcField v = opcodeOf i)
    (hdata : ∀ b, i = .csumAdd b → dataField v = b) : decode v = .instr i := by
  unfold decode
  cases i
  case csumAdd b =>
    rw [hopc, hdata b rfl]
    rfl
  all_goals
    rw [hopc]
    rfl

theorem decode_eq_instr_iff (v : Word) (i : Instr) :
    decode v = .instr i ↔ opcField v = opcodeOf i ∧ ∀ b, i = .csumAdd b → dataField v = b :=
  ⟨fields_of_decode, fun ⟨hopc, hdata⟩ => decode_of_fields hopc hdata⟩

@[simp] theorem decode_encode (i : Instr) : decode (encode i) = .instr i := by
  refine decode_of_fields (opcField_commandWord 0 (dataOf i) (opcodeOf i)) ?_
  rintro b rfl
  exact dataField_commandWord 0 b 0x02

theorem opc_of_decode_illegalOp {v : Word} {opc : Byte} (h : decode v = .illegalOp opc) : opc = opcField v := by
  unfold decode at h
  split at h
  case h_10 => exact (Decoded.illegalOp.inj h).symm
  all_goals cases h

/-- A word with no command's opcode is illegal (30_encoding.md R73). -/
theorem decode_of_unlisted {v : Word} (h : ∀ i, opcField v ≠ opcodeOf i) : decode v = .illegalOp (opcField v) := by
  cases hd : decode v with
  | instr i => exact absurd (fields_of_decode hd).1 (h i)
  | illegalOp opc => rw [opc_of_decode_illegalOp hd]

/-- Settles O1, by what the decoder reads of a word. -/
theorem decodeAndEncodeAgree : Obligations.DecodeAndEncodeAgree :=
  ⟨fun i _ => decode_encode i, fun i v => decode_eq_instr_iff v i⟩

/-- Settles O2: the words are evaluated one by one. -/
theorem specWordsDecode : Obligations.SpecWordsDecode :=
  ⟨rfl, rfl, rfl, rfl, rfl, rfl, rfl, rfl, rfl, rfl, rfl⟩

/-! ### A CMD write that runs no command -/

theorem presentCommand_of_illegalOp {v : Word} {opc : Byte} (h : decode v = .illegalOp opc) (s : State) :
    presentCommand v s = illegalCommand opc s := by
  simp only [presentCommand, h]

/-- While busy a command word is dropped, whatever it decodes to (30_encoding.md R72). -/
theorem presentCommand_of_busy (v : Word) {s : State} (h : s.phase ≠ .idle) :
    presentCommand v s = .next s.dropCommand := by
  cases hv : decode v with
  | instr i => rw [presentCommand_of_instr hv, exec_of_busy i h]
  | illegalOp opc => rw [presentCommand_of_illegalOp hv, illegalCommand, present_of_busy _ _ h]

/-- Settles O4: no command looks past the busy SFC. -/
theorem commandWriteWhileBusyIsDropped : Obligations.CommandWriteWhileBusyIsDropped := by
  intro v s busy
  refine ⟨?_, fun i => exec_of_busy i busy⟩
  rw [hostWrite_regIndex]
  exact presentCommand_of_busy v busy

/-- An accepted command that completes at once leaves PHASE as it was, IDLE (60_exceptions.md R118). -/
theorem complete_of_idle {s : State} (h : s.phase = .idle) (code : BitVec 4) :
    s.complete code = { s with err := code, done := true, dvalid := code == 0 && isDecoderOp s.lastOp } := by
  rw [State.complete, ← h]

/-- An illegal command, accepted, completes with ILLEGAL_OP (30_encoding.md R73). -/
theorem illegalCommand_of_idle (opc : Byte) {s : State} (h : s.phase = .idle) :
    illegalCommand opc s = .next { s with lastOp := opc, done := true, dvalid := false, err := 1, errf := 0x001 } := by
  rw [illegalCommand, present_of_idle _ _ h, complete_of_idle (s := (s.accept opc).raise .illegalOp) h]
  simp [errorCode, errorFlag]

/-- The opcodes outside the map of 30_encoding.md R70. -/
theorem opcodeOf_ne_of_unlisted {opc : Byte}
    (h : let n := opc.toNat
      n = 0x00 ∨ (0x03 ≤ n ∧ n ≤ 0x0F) ∨ (0x14 ≤ n ∧ n ≤ 0x1F) ∨ (0x23 ≤ n ∧ n ≤ 0xFF)) (i : Instr) :
    opc ≠ opcodeOf i := by
  rintro rfl
  cases i <;> simp [opcodeOf] at h

/-- Settles O3: no command has such an opcode, and the write and the step come to presenting the word. -/
theorem unlistedOpcodeCompletesWithIllegalOp : Obligations.UnlistedOpcodeCompletesWithIllegalOp := by
  intro v s idle unlisted
  have hv : decode v = .illegalOp (opcField v) := decode_of_unlisted (opcodeOf_ne_of_unlisted unlisted)
  have presented (u : State) (hu : u.phase = .idle) :=
    (presentCommand_of_illegalOp hv u).trans (illegalCommand_of_idle (opcField v) hu)
  have written (u : State) (hu : u.phase = .idle) := (hostWrite_regIndex .cmd v u).trans (presented u hu)
  exact ⟨hv, presented s idle, written s idle,
    fun ts h turns host => (step_host_write turns host).trans (written _ idle)⟩

/-! ### The polls of `wait` -/

theorem step_host_wait {s : State} {ts : List Agent} {h : List HostOp} (turns : s.turns = .host :: ts)
    (host : s.host = .wait :: h) : step s = .next (hostPoll h { s with turns := ts }) := by
  simp only [step_of_turns_cons turns, agentTurn, hostTurn, host]

theorem hostPoll_of_busy {s : State} (h : s.phase ≠ .idle) (rest : List HostOp) :
    hostPoll rest s = hostRead (regIndex .status) s :=
  if_pos (by rw [readIndex_regIndex, readReg, statusWord_bit0, busy_eq_true_iff]; exact h)

theorem hostPoll_of_idle {s : State} (h : s.phase = .idle) (rest : List HostOp) :
    hostPoll rest s = { hostRead (regIndex .status) s with host := rest } :=
  if_neg (by rw [readIndex_regIndex, readReg, statusWord_bit0, Bool.not_eq_true, busy_eq_false_iff]; exact h)

/-- A poll of the idle SFC leaves `wait`, with STATUS in the record (30_encoding.md R84). -/
theorem step_wait_of_idle {s : State} {ts : List Agent} {h : List HostOp} (turns : s.turns = .host :: ts)
    (host : s.host = .wait :: h) (idle : s.phase = .idle) :
    step s = .next { s with turns := ts, host := h, readLog := s.readLog ++ [statusWord s] } := by
  rw [step_host_wait turns host, hostPoll_of_idle (s := { s with turns := ts }) idle, hostRead, readIndex_regIndex]
  rfl

/-- Settles O40, by the bit of STATUS that the poll looks at. -/
theorem waitPollsStatusUntilNotBusy : Obligations.WaitPollsStatusUntilNotBusy := by
  intro s ts h turns host
  have status : readIndex 0x02 s = statusWord s := readIndex_regIndex .status s
  refine ⟨fun busy => ?_, fun idle => status ▸ step_wait_of_idle turns host idle⟩
  rw [step_host_wait turns host, hostPoll_of_busy (s := { s with turns := ts }) busy, hostRead, readIndex_regIndex,
    status]
  rfl

/-! ### The line `csum` -/

/-- The accumulator's running sum is the sum reduced once (40_checksum.md R89). -/
theorem foldl_accStep_toNat (bs : List Byte) (acc : Byte) :
    (bs.foldl accStep acc).toNat = (acc.toNat + byteSum bs) % 256 := by
  induction bs generalizing acc with
  | nil => simp [byteSum, Nat.mod_eq_of_lt acc.isLt]
  | cons b bs ih =>
    have hsum : byteSum (b :: bs) = b.toNat + byteSum bs := by simp [byteSum]
    rw [List.foldl_cons, ih, accStep_eq_add, BitVec.toNat_add, hsum]
    omega

theorem foldl_accStep_zero (bs : List Byte) : bs.foldl accStep 0 = BitVec.ofNat 8 (byteSum bs % 256) :=
  BitVec.eq_of_toNat_eq (by simp [foldl_accStep_toNat])

theorem step_commandLine {s : State} {ts : List Agent} {h : List HostOp} {i : Instr} (turns : s.turns = .host :: ts)
    (host : s.host = commandLine i :: h) : step s = exec i { s with turns := ts, host := h } :=
  step_command turns host (decode_encode i)

section
variable {s : State}

theorem exec_csumClr_of_idle (h : s.phase = .idle) :
    exec .csumClr s = .next { s with
      lastOp := 0x01, done := true, dvalid := false, err := 0, errf := 0, acc := 0 } := by
  simp [exec_of_idle, h, acceptedBody, complete_of_idle, opcodeOf, isDecoderOp]

theorem exec_csumAdd_of_idle (b : Byte) (h : s.phase = .idle) :
    exec (.csumAdd b) s = .next { s with
      lastOp := 0x02, done := true, dvalid := false, err := 0, errf := 0, acc := accStep s.acc b } := by
  simp [exec_of_idle, h, acceptedBody, complete_of_idle, opcodeOf, isDecoderOp]

end

/-- A run of CSUM.ADDs from idle sums their bytes into ACC (40_checksum.md R92). -/
theorem runSteps_csumAdds (bs : List Byte) : ∀ {b : Byte} {s : State} {ts : List Agent} {h : List HostOp},
    s.phase = .idle → s.turns = List.replicate (b :: bs).length .host ++ ts →
    s.host = (b :: bs).map (fun b => commandLine (.csumAdd b)) ++ h →
    runSteps (b :: bs).length s = .next { s with
      turns := ts, host := h, lastOp := 0x02, done := true, dvalid := false, err := 0, errf := 0
      acc := (b :: bs).foldl accStep s.acc } := by
  induction bs with
  | nil =>
    intro b s ts h idle turns host
    exact runSteps_succ ((step_commandLine turns host).trans (exec_csumAdd_of_idle b idle))
  | cons c bs ih =>
    intro b s ts h idle turns host
    have first := (step_commandLine (h := (c :: bs).map (fun b => commandLine (.csumAdd b)) ++ h)
      (ts := List.replicate (c :: bs).length .host ++ ts) turns host).trans (exec_csumAdd_of_idle b idle)
    exact (runSteps_succ first).trans (ih idle rfl rfl)

theorem assembleLine_csum (bs : List Byte) :
    assembleLine (.csum (bs.map BitVec.toNat)) =
      commandLine .csumClr :: bs.map (fun b => commandLine (.csumAdd b)) := by
  simp [assembleLine]

/-- Settles O9: CSUM.CLR clears ACC, and the CSUM.ADDs sum their bytes into it. -/
theorem csumLineLeavesTheChecksumInAcc : Obligations.CsumLineLeavesTheChecksumInAcc := by
  intro bs s ts h nonempty idle turns host
  refine ⟨assembleLine_csum bs, _, ?_, rfl⟩
  obtain ⟨b, bs, rfl⟩ := List.exists_cons_of_ne_nil nonempty
  rw [assembleLine_csum] at host
  have clear := (step_commandLine (ts := List.replicate (b :: bs).length .host ++ ts) turns host).trans
    (exec_csumClr_of_idle idle)
  refine (runSteps_succ clear).trans ((runSteps_csumAdds bs (by exact idle) rfl rfl).trans ?_)
  simp only [foldl_accStep_zero]

/-! ### A whole frame sent -/

/-- The accumulator over bytes 0 to 24 of a frame, from zero (40_checksum.md R88, R89). -/
def frameSum (m : Memory) : Byte := (frameBytes m 25).foldl accStep 0

/-- The frame an encoder starts with: its checksum byte is not yet written (41_encode.md R95). -/
def frameOf (i : Instr) (s : State) : Memory := setByte (packOf i s) 25 0

/-- `s` after the encoder `i` was accepted with valid operands (41_encode.md R95). -/
def State.startSending (s : State) (i : Instr) : State :=
  { s with
    phase := .tx, lastOp := opcodeOf i, cnt := 0, acc := 0, fbuf := frameOf i s, done := false, dvalid := false
    err := 0, errf := 0 }

/-- `s` after the encoder `i` has sent its whole frame (41_encode.md R98). -/
def State.afterSending (s : State) (i : Instr) : State :=
  { s with
    phase := .idle, lastOp := opcodeOf i, done := true, dvalid := false, err := 0, errf := 0, cnt := 26
    acc := frameSum (frameOf i s), fbuf := setByte (frameOf i s) 25 (frameSum (frameOf i s))
    txTrace := s.txTrace ++ frameBytes (frameOf i s) 25 ++ [frameSum (frameOf i s)] }

theorem exec_encoder_of_idle {i : Instr} {s : State} (encoder : isEncoderOp (opcodeOf i) = true)
    (idle : s.phase = .idle) (valid : OperandsValid i s) : exec i s = .next (s.startSending i) := by
  have pack : packOf i (s.accept (opcodeOf i)) = packOf i s := by cases i <;> rfl
  rw [exec_of_idle i idle, acceptedBody_of_valid encoder valid, pack]
  rfl

/-- The frame does not depend on the turns and the transactions to come. -/
theorem frameOf_withHostTurn (i : Instr) (s : State) (ts : List Agent) (h : List HostOp) :
    frameOf i { s with turns := ts, host := h } = frameOf i s := by
  cases i <;> rfl

/-- 26 TAKEs of a frame from its start send its 25 bytes and then their sum (41_encode.md R96). -/
theorem runSteps_takes_frame {s : State} {ts : List Agent} {k : List TxAnswer} (sending : s.phase = .tx)
    (start : s.cnt = 0) (clear : s.acc = 0) (turns : s.turns = List.replicate 26 .txSink ++ ts)
    (sink : s.sink = List.replicate 26 .take ++ k) :
    runSteps 26 s = .next ({ s with
      turns := ts, sink := k, txTrace := s.txTrace ++ frameBytes s.fbuf 25 ++ [frameSum s.fbuf]
      acc := frameSum s.fbuf, fbuf := setByte s.fbuf 25 (frameSum s.fbuf), cnt := 26 }.complete 0) := by
  have first := runSteps_takes 25 (ts := .txSink :: ts) (k := .take :: k) sending (by simp [start]) turns sink
  rw [start, clear] at first
  refine (runSteps_add 1 25 first).trans (runSteps_succ ?_)
  refine (step_take rfl rfl (by exact sending)).trans ((txTake_last rfl).trans ?_)
  simp [frameSum, bytesFrom_zero_eq_frameBytes]

section
variable {i : Instr} {s : State} {ts : List Agent} {h : List HostOp} {k : List TxAnswer}

/-- An encoder with valid operands, accepted while idle, sends its frame to a sink that takes it (41_encode.md R98). -/
theorem runSteps_encoder (encoder : isEncoderOp (opcodeOf i) = true) (idle : s.phase = .idle)
    (valid : OperandsValid i s) (turns : s.turns = .host :: List.replicate 26 .txSink ++ ts)
    (host : s.host = commandLine i :: h) (sink : s.sink = List.replicate 26 .take ++ k) :
    runSteps 27 s = .next { s.afterSending i with turns := ts, host := h, sink := k } := by
  have accepted := (step_commandLine (ts := List.replicate 26 .txSink ++ ts) turns host).trans
    (exec_encoder_of_idle encoder idle valid)
  refine (runSteps_succ accepted).trans ((runSteps_takes_frame rfl rfl rfl rfl (by exact sink)).trans ?_)
  simp only [State.complete, State.startSending, State.afterSending, frameOf_withHostTurn,
    not_decoder_of_encoder encoder, Bool.and_false]

/-- The encoder's frame, and one poll of `wait` after it. -/
theorem runSteps_encoder_wait (encoder : isEncoderOp (opcodeOf i) = true) (idle : s.phase = .idle)
    (valid : OperandsValid i s) (turns : s.turns = .host :: List.replicate 26 .txSink ++ .host :: ts)
    (host : s.host = commandLine i :: .wait :: h) (sink : s.sink = List.replicate 26 .take ++ k) :
    runSteps 28 s = .next { s.afterSending i with
      turns := ts, host := h, sink := k, readLog := s.readLog ++ [statusWord (s.afterSending i)] } :=
  (runSteps_add 1 27 (runSteps_encoder encoder idle valid turns host sink)).trans
    (runSteps_succ (step_wait_of_idle rfl rfl rfl))

end

/-! ### A whole frame received -/

theorem storeBytes_append (bs cs : List Byte) : ∀ (m : Memory) (a : Nat),
    storeBytes m a (bs ++ cs) = storeBytes (storeBytes m a bs) (a + bs.length) cs := by
  induction bs with
  | nil => intro m a; rfl
  | cons b bs ih =>
    intro m a
    rw [List.cons_append, storeBytes, ih, storeBytes, List.length_cons, Nat.add_right_comm, Nat.add_assoc]

theorem byteAt_storeBytes_zero (m : Memory) {bs : List Byte} {a : Nat} (h : a < bs.length) :
    byteAt (storeBytes m 0 bs) a = bs.getD a 0 := by
  rw [byteAt_storeBytes, if_pos (by omega), Nat.sub_zero]

theorem frameBytes_storeBytes (m : Memory) (bs : List Byte) : frameBytes (storeBytes m 0 bs) bs.length = bs := by
  refine List.ext_getElem (frameBytes_length _ _) fun j _ hj => ?_
  simp [frameBytes, byteAt_storeBytes_zero m hj, hj]

/-- 26 DELIVERs from the start of a frame store it, sum all bytes but the last, and end in the frame checks
(42_decode.md R104, R105). -/
theorem runSteps_delivers_frame {s : State} {ts : List Agent} {bs : List Byte} {k : List RxAnswer}
    (receiving : s.phase = .rx) (start : s.cnt = 0) (whole : bs.length = 26)
    (turns : s.turns = List.replicate 26 .rxSource ++ ts) (source : s.source = bs.map .deliver ++ k) :
    runSteps 26 s = .next (rxComplete { s with
      turns := ts, source := k, fbuf := storeBytes s.fbuf 0 bs, acc := (bs.take 25).foldl accStep s.acc
      cnt := 26 }) := by
  obtain ⟨front, b, rfl⟩ : ∃ front b, bs = front ++ [b] :=
    ⟨bs.take 25, bs[25], by rw [List.take_append_getElem, List.take_of_length_le (by omega)]⟩
  have front_length : front.length = 25 := by simpa using whole
  have first := runSteps_delivers front (s := s) (ts := .rxSource :: ts) (k := .deliver b :: k) receiving
    (by simp [start, front_length]) (by rw [turns, front_length]; rfl) (by simp [source])
  rw [start, front_length] at first
  refine (runSteps_add 1 25 first).trans (runSteps_succ ?_)
  refine (step_deliver rfl rfl (by exact receiving)).trans ((rxDeliver_last rfl).trans ?_)
  simp [storeBytes_append, front_length, storeBytes]

/-- `s` after the decoder `i` was accepted (42_decode.md R103). -/
def State.startReceiving (s : State) (i : Instr) : State :=
  { s with
    phase := .rx, lastOp := opcodeOf i, cnt := 0, acc := 0, fbuf := zeroFill s.fbuf 0 Config.frameLen, done := false
    dvalid := false, err := 0, errf := 0 }

/-- `s` after the decoder `i` was given the 26 bytes `bs`, before it checks them (42_decode.md R104). -/
def State.receivedAll (s : State) (i : Instr) (bs : List Byte) : State :=
  { s.startReceiving i with
    cnt := 26, acc := (bs.take 25).foldl accStep 0, fbuf := storeBytes (s.startReceiving i).fbuf 0 bs }

/-- `s` after the decoder `i` has accepted the frame `bs` (42_decode.md R105). -/
def State.afterDecoding (s : State) (i : Instr) (bs : List Byte) : State :=
  { s.receivedAll i bs with phase := .idle, done := true, dvalid := true }

/-- The frame checks let `bs` through for the decoder of opcode `opc` (42_decode.md R105). -/
structure FrameAccepted (opc : Byte) (bs : List Byte) : Prop where
  whole : bs.length = 26
  start : bs.getD 0 0 = Config.startByte
  command : bs.getD 2 0 = expectedCommand opc
  sum : (bs.getD 25 0).toNat = byteSum (bs.take 25) % 256

theorem exec_decoder_of_idle {i : Instr} {s : State} (decoder : isDecoderOp (opcodeOf i) = true)
    (idle : s.phase = .idle) : exec i s = .next (s.startReceiving i) := by
  rw [exec_of_idle i idle]
  cases i
  case decSet | decGet | decState => rfl
  all_goals cases decoder

/-- A frame that passes its checks sets no flag. -/
theorem frameCheckFlags_of_accepted {opc : Byte} {bs : List Byte} (h : FrameAccepted opc bs) {s : State} {m : Memory}
    (lastOp : s.lastOp = opc) (fbuf : s.fbuf = storeBytes m 0 bs) (acc : s.acc = (bs.take 25).foldl accStep 0) :
    frameCheckFlags s = 0 := by
  obtain ⟨whole, start, command, sum⟩ := h
  have sum_acc : bs.getD 25 0 = s.acc := by
    apply BitVec.eq_of_toNat_eq
    rw [sum, acc, foldl_accStep_zero, BitVec.toNat_ofNat]
    omega
  have byte {a : Nat} (ha : a < 26) : byteAt s.fbuf a = bs.getD a 0 := fbuf ▸ byteAt_storeBytes_zero m (whole ▸ ha)
  rw [frameCheckFlags, byte (by decide), byte (by decide), byte (by decide), start, command, sum_acc, lastOp]
  simp

section
variable {i : Instr} {s : State} {ts : List Agent} {h : List HostOp} {bs : List Byte} {k : List RxAnswer}

/-- A decoder accepted while idle takes 26 bytes and checks them (42_decode.md R103 to R105). -/
theorem runSteps_decoder (decoder : isDecoderOp (opcodeOf i) = true) (idle : s.phase = .idle) (whole : bs.length = 26)
    (turns : s.turns = .host :: List.replicate 26 .rxSource ++ ts) (host : s.host = commandLine i :: h)
    (source : s.source = bs.map .deliver ++ k) :
    runSteps 27 s = .next (rxComplete { s.receivedAll i bs with turns := ts, host := h, source := k }) := by
  have accepted := (step_commandLine (ts := List.replicate 26 .rxSource ++ ts) turns host).trans
    (exec_decoder_of_idle decoder idle)
  refine (runSteps_succ accepted).trans ((runSteps_delivers_frame rfl rfl whole rfl (by exact source)).trans ?_)
  simp only [State.receivedAll, State.startReceiving]

/-- The checks of an accepted frame complete the decoder without error (42_decode.md R105). -/
theorem rxComplete_of_accepted (decoder : isDecoderOp (opcodeOf i) = true) (accepted : FrameAccepted (opcodeOf i) bs) :
    rxComplete { s.receivedAll i bs with turns := ts, host := h, source := k } =
      { s.afterDecoding i bs with turns := ts, host := h, source := k } := by
  rw [rxComplete_eq, frameCheckFlags_of_accepted accepted rfl rfl rfl]
  simp [State.complete, State.afterDecoding, State.receivedAll, State.startReceiving, decoder]
  exact priority_zero

/-- A frame accepted, and one poll of `wait` after it. -/
theorem runSteps_decoder_wait (decoder : isDecoderOp (opcodeOf i) = true) (idle : s.phase = .idle)
    (accepted : FrameAccepted (opcodeOf i) bs)
    (turns : s.turns = .host :: List.replicate 26 .rxSource ++ .host :: ts)
    (host : s.host = commandLine i :: .wait :: h) (source : s.source = bs.map .deliver ++ k) :
    runSteps 28 s = .next { s.afterDecoding i bs with
      turns := ts, host := h, source := k, readLog := s.readLog ++ [statusWord (s.afterDecoding i bs)] } := by
  have decoded := runSteps_decoder decoder idle accepted.whole turns host source
  rw [rxComplete_of_accepted decoder accepted] at decoded
  exact (runSteps_add 1 27 decoded).trans (runSteps_succ (step_wait_of_idle rfl rfl rfl))

end

/-! ### The line `query` -/

/-- Every byte of the Get request past its header is zero (30_encoding.md R76). -/
theorem byteAt_frameOf_getReq (s : State) {a : Nat} (h3 : 3 ≤ a) (h25 : a < 25) :
    byteAt (frameOf .encGetReq s) a = 0 := by
  rw [frameOf, byteAt_setByte_other _ _ (by omega), packOf, packGetReq, byteAt_zeroFill, if_pos (by omega)]

theorem frameBytes_append_zeros {m : Memory} {n k : Nat} (h : ∀ a, n ≤ a → a < n + k → byteAt m a = 0) :
    frameBytes m (n + k) = frameBytes m n ++ List.replicate k 0 := by
  induction k with
  | zero => simp
  | succ k ih =>
    rw [← Nat.add_assoc, frameBytes_succ, h (n + k) (by omega) (by omega), ih fun a h1 h2 => h a h1 (by omega),
      List.append_assoc, List.replicate_succ']

/-- The Get request before its checksum (30_encoding.md R76). -/
theorem frameBytes_getReq (s : State) :
    frameBytes (frameOf .encGetReq s) 25 = [0xAA, s.fAddr, 0x91] ++ List.replicate 22 0x00 := by
  have header : frameBytes (frameOf .encGetReq s) 3 = [0xAA, s.fAddr, 0x91] := by
    simp [frameBytes, List.range_succ, frameOf, byteAt_setByte, packOf, packGetReq, byteAt_zeroFill, packHeader,
      byteAt_memWrite, Config.startByte, Config.cmdGet]
  rw [frameBytes_append_zeros (n := 3) (k := 22) fun a h3 h25 => byteAt_frameOf_getReq s h3 h25, header]

/-- The Get request's checksum: its start and command bytes sum to 0x13B (41_encode.md R100). -/
theorem frameSum_getReq (s : State) : frameSum (frameOf .encGetReq s) = s.fAddr + 0x3B := by
  apply BitVec.eq_of_toNat_eq
  rw [frameSum, foldl_accStep_toNat, frameBytes_getReq]
  simp [byteSum]
  omega

/-- STATUS after the request, where no command was dropped: LAST_OP 0x11, CNT 26, DONE (20_memory.md R46). -/
theorem statusWord_afterSending_getReq {s : State} (ovr : s.ovr = false) :
    statusWord (s.afterSending .encGetReq) = 0x00111A02 := by
  simp [statusWord, State.busy, State.afterSending, opcodeOf, ovr]

/-- STATUS after the response: LAST_OP 0x21, CNT 26, DVALID and DONE (20_memory.md R46). -/
theorem statusWord_afterDecoding_get {s : State} (bs : List Byte) (ovr : s.ovr = false) :
    statusWord (s.afterDecoding .decGet bs) = 0x00211A06 := by
  simp [statusWord, State.busy, State.afterDecoding, State.receivedAll, State.startReceiving, opcodeOf, ovr]

/-- The bytes on the stream after the request (41_encode.md R98, R100). -/
theorem txTrace_afterSending_getReq (s : State) :
    (s.afterSending .encGetReq).txTrace =
      s.txTrace ++ ([0xAA, s.fAddr, 0x91] ++ List.replicate 22 0x00 ++ [s.fAddr + 0x3B]) := by
  rw [State.afterSending, frameBytes_getReq, frameSum_getReq, List.append_assoc]

/-- Settles O32: the request is sent and polled, then the response is received and polled. -/
theorem queryDecodesTheResponse : Obligations.QueryDecodesTheResponse := by
  intro bs s idle address whole start command sum
  have valid : OperandsValid .encGetReq (withQuery bs s) := ⟨address, fun h => nomatch h⟩
  have accepted : FrameAccepted (opcodeOf .decGet) bs := ⟨whole, start, command, sum⟩
  have turns : (withQuery bs s).turns = .host :: List.replicate 26 .txSink ++ .host ::
      (.host :: List.replicate 26 .rxSource ++ .host :: s.turns) := by
    simp [withQuery, whole]
  have request := runSteps_encoder_wait (s := withQuery bs s) rfl idle valid turns rfl rfl
  have response := (runSteps_add 28 28 request).trans
    (runSteps_decoder_wait rfl rfl accepted rfl rfl rfl)
  refine ⟨_, response, ⟨rfl, rfl, rfl⟩, rfl, ?_, ?_, rfl, rfl, rfl, rfl, fieldsKept_refl s, fun ovr => ?_⟩
  · exact whole ▸ frameBytes_storeBytes _ bs
  · exact txTrace_afterSending_getReq s
  · change s.readLog ++ [statusWord ((withQuery bs s).afterSending .encGetReq)]
      ++ [statusWord (State.afterDecoding _ .decGet bs)] = _
    rw [statusWord_afterSending_getReq (by exact ovr), statusWord_afterDecoding_get bs (by exact ovr), List.append_assoc]
    rfl

end Sys2Proof.Machine

/-!
The checksum's family (40_checksum.md): CSUM.CLR and CSUM.ADD, what the accumulator's running sum depends on, and that a
decoder sees no change of its frame that keeps the sum.
-/

namespace Sys2Proof.Machine

/-! ### The running sum of a list -/

/-- Settles O8: the running sum's induction over the list is `foldl_accStep_toNat`. -/
theorem reducingAtEveryByteGivesTheSumModulo256 : Obligations.ReducingAtEveryByteGivesTheSumModulo256 :=
  foldl_accStep_toNat

theorem foldl_accStep_zero_toNat (bs : List Byte) : (bs.foldl accStep 0).toNat = byteSum bs % 256 := by
  simp [foldl_accStep_toNat]

/-- Different start values keep different running sums. -/
theorem foldl_accStep_start_inj (bs : List Byte) {a a' : Byte} :
    bs.foldl accStep a = bs.foldl accStep a' ↔ a = a' := by
  induction bs generalizing a a' with
  | nil => rfl
  | cons b bs ih => rw [List.foldl_cons, List.foldl_cons, ih, accStep_eq_add, accStep_eq_add, BitVec.add_left_inj]

/-- One changed byte changes the running sum (40_checksum.md R93). -/
theorem foldl_accStep_set_ne (bs : List Byte) {acc : Byte} {j : Nat} {b : Byte} (hj : j < bs.length)
    (changed : b ≠ bs.getD j 0) : (bs.set j b).foldl accStep acc ≠ bs.foldl accStep acc := by
  induction bs generalizing acc j with
  | nil => exact absurd hj (Nat.not_lt_zero j)
  | cons c bs ih =>
    cases j with
    | zero =>
      rw [List.set_cons_zero, List.foldl_cons, List.foldl_cons, ne_eq, foldl_accStep_start_inj, accStep_eq_add,
        accStep_eq_add, BitVec.add_right_inj]
      exact changed
    | succ j => exact ih (Nat.lt_of_succ_lt_succ hj) changed

/-- The order of the bytes does not show in the running sum (40_checksum.md R93). -/
theorem foldl_accStep_perm {bs bs' : List Byte} (h : bs.Perm bs') (acc : Byte) :
    bs'.foldl accStep acc = bs.foldl accStep acc :=
  (h.foldl_eq' (fun x _ y _ z => by simp only [accStep_eq_add, add_right_comm z x y]) acc).symm

/-! ### What a decoder accepts -/

theorem decoders_isDecoderOp : ∀ d ∈ decoders, isDecoderOp (opcodeOf d.1) = true := by decide

/-- A frame whose checks set no flag is accepted: the converse of `frameCheckFlags_of_accepted` (42_decode.md R105). -/
theorem accepted_of_frameCheckFlags {i : Instr} {s : State} {bs : List Byte} (whole : bs.length = 26)
    (clean : frameCheckFlags (s.receivedAll i bs) = 0) : FrameAccepted (opcodeOf i) bs := by
  obtain ⟨start, command, sum⟩ := frameCheckFlags_eq_zero clean
  have byte {a : Nat} (ha : a < 26) : byteAt (s.receivedAll i bs).fbuf a = bs.getD a 0 :=
    byteAt_storeBytes_zero _ (whole ▸ ha)
  rw [byte (by decide)] at start command sum
  exact ⟨whole, start, command, (congrArg BitVec.toNat sum).trans (foldl_accStep_zero_toNat _)⟩

/-- A decoder reads a frame's bytes 0, 2 and 25 and the running sum of the bytes before the last (42_decode.md R105). -/
theorem FrameAccepted.of_sameSum {opc : Byte} {bs bs' : List Byte} (h : FrameAccepted opc bs)
    (whole : bs'.length = 26) (start : bs'.getD 0 0 = bs.getD 0 0) (command : bs'.getD 2 0 = bs.getD 2 0)
    (last : bs'.getD 25 0 = bs.getD 25 0)
    (sum : (bs'.take 25).foldl accStep 0 = (bs.take 25).foldl accStep 0) : FrameAccepted opc bs' where
  whole := whole
  start := start.trans h.start
  command := command.trans h.command
  sum := by rw [last, h.sum, ← foldl_accStep_zero_toNat, ← foldl_accStep_zero_toNat, sum]

section
variable {i : Instr} {s : State} {bs : List Byte}

/-- The run of `withReceiving` from idle ends in the frame checks (42_decode.md R103 to R105). -/
theorem runSteps_withReceiving (decoder : isDecoderOp (opcodeOf i) = true) (idle : s.phase = .idle)
    (whole : bs.length = 26) : runSteps 27 (withReceiving i bs s) = .next (rxComplete (s.receivedAll i bs)) :=
  runSteps_decoder (s := withReceiving i bs s) decoder idle whole (by rw [← whole]; rfl) rfl rfl

theorem runSteps_withReceiving_of_accepted (decoder : isDecoderOp (opcodeOf i) = true) (idle : s.phase = .idle)
    (accepted : FrameAccepted (opcodeOf i) bs) :
    runSteps 27 (withReceiving i bs s) = .next (s.afterDecoding i bs) :=
  (runSteps_withReceiving decoder idle accepted.whole).trans
    (congrArg _ (rxComplete_of_accepted (s := s) (ts := s.turns) (h := s.host) (k := s.source) decoder accepted))

/-- A decoder that ends with ERR = 0 has accepted its frame (42_decode.md R105). -/
theorem accepted_of_err_eq_zero {t : State} (decoder : isDecoderOp (opcodeOf i) = true) (idle : s.phase = .idle)
    (whole : bs.length = 26) (run : runSteps 27 (withReceiving i bs s) = .next t) (err : t.err = 0) :
    FrameAccepted (opcodeOf i) bs := by
  rw [runSteps_withReceiving decoder idle whole, rxComplete_eq] at run
  injection run with after
  have reported : priority (frameCheckFlags (s.receivedAll i bs)) = 0 := by
    rw [← after] at err
    simpa [State.receivedAll, State.startReceiving] using err
  exact accepted_of_frameCheckFlags whole
    (flags_zero_of_priority_zero _ (frameCheckFlags_possible _) reported)

end

/-- Settles O10: the running sum is all that a decoder knows of the bytes other than 0, 2 and 25. -/
theorem checksumSeesOneByteButNotTheOrder : Obligations.ChecksumSeesOneByteButNotTheOrder := by
  refine ⟨fun bs acc j b hj changed => foldl_accStep_set_ne bs hj changed,
    fun bs bs' acc perm => foldl_accStep_perm perm acc, ?_⟩
  intro d bs bs' s t hd whole whole' idle run err start command last same
  have decoder := decoders_isDecoderOp d hd
  have sum : (bs'.take 25).foldl accStep 0 = (bs.take 25).foldl accStep 0 :=
    same.elim (fun perm => foldl_accStep_perm perm 0) id
  have accepted := accepted_of_err_eq_zero decoder idle whole run err
  have accepted' := accepted.of_sameSum whole' start command last sum
  rw [runSteps_withReceiving_of_accepted decoder idle accepted] at run
  injection run with after
  refine ⟨_, runSteps_withReceiving_of_accepted decoder idle accepted', rfl, rfl, rfl, ?_, ?_⟩
  · exact after ▸ sum
  · exact whole' ▸ frameBytes_storeBytes _ bs'

/-! ### CSUM.CLR and CSUM.ADD -/

/-- STATUS after a CSUM.CLR, where no frame byte was counted and no command dropped (40_checksum.md R91). -/
theorem statusWord_of_csumClr {t : State} (idle : t.phase = .idle) (lastOp : t.lastOp = 0x01) (done : t.done = true)
    (dvalid : t.dvalid = false) (err : t.err = 0) (cnt : t.cnt = 0) (ovr : t.ovr = false) :
    statusWord t = 0x00010002 := by
  simp [statusWord, State.busy, idle, lastOp, done, dvalid, err, cnt, ovr]

/-- Settles O6: accepted, CSUM.CLR completes at once; while busy it is dropped. -/
theorem csumClrClearsTheAccumulator : Obligations.CsumClrClearsTheAccumulator := by
  refine ⟨fun v opc => decode_of_fields (i := .csumClr) opc (fun _ h => nomatch h), fun s => ⟨fun idle => ?_, ?_⟩⟩
  · refine ⟨_, exec_csumClr_of_idle idle, rfl, fun _ => rfl, fun cnt ovr => ?_⟩
    exact (readIndex_regIndex .status _).trans (statusWord_of_csumClr idle rfl rfl rfl rfl cnt ovr)
  · exact exec_of_busy .csumClr

/-- Settles O7: accepted, CSUM.ADD adds its byte and completes at once; while busy it is dropped. -/
theorem csumAddAddsItsByteModulo256 : Obligations.CsumAddAddsItsByteModulo256 := by
  refine ⟨fun v opc => decode_of_fields (i := .csumAdd (dataField v)) opc (fun _ h => Instr.csumAdd.inj h),
    fun b s => ⟨fun idle => ?_, exec_of_busy (.csumAdd b)⟩⟩
  refine ⟨_, exec_csumAdd_of_idle b idle, ?_, fun _ => rfl⟩
  rw [accStep_eq_add, add_eq_ofNat_mod]

end Sys2Proof.Machine

/-!
The encoders' family (41_encode.md): reads of a frame across the writes that pack it, the bytes of the four frames, and
what an encoder does from its acceptance to its last byte.
-/

namespace Sys2Proof.Machine

/-! ### Reads across writes elsewhere -/

section
variable (m : Memory) {a n i k : Nat}

theorem byteAt_memWrite_other (v : Nat) (h : a < i ∨ i + k ≤ a) : byteAt (memWrite m i k v) a = byteAt m a := by
  rw [byteAt_memWrite, if_neg (by omega)]

theorem byteAt_zeroFill_other (h : a < i ∨ i + k ≤ a) : byteAt (zeroFill m i k) a = byteAt m a := by
  rw [byteAt_zeroFill, if_neg (by omega)]

theorem memRead_setByte_other (b : Byte) (h : a + n ≤ i ∨ i < a) : memRead (setByte m i b) a n = memRead m a n :=
  memRead_congr n a fun _ _ _ => byteAt_setByte_other m b (by omega)

theorem memRead_memWrite_other (v : Nat) (h : a + n ≤ i ∨ i + k ≤ a) :
    memRead (memWrite m i k v) a n = memRead m a n :=
  memRead_congr n a fun _ _ _ => byteAt_memWrite_other m v (by omega)

theorem memRead_zeroFill_other (h : a + n ≤ i ∨ i + k ≤ a) : memRead (zeroFill m i k) a n = memRead m a n :=
  memRead_congr n a fun _ _ _ => byteAt_zeroFill_other m (by omega)

/-- A register of at most `8 * n` bits, written to `n` bytes, is read back whole (00_scope.md R9). -/
theorem memRead_memWrite_toNat {w : Nat} (v : BitVec w) (a : Nat) (h : w ≤ 8 * n) :
    memRead (memWrite m a n v.toNat) a n = v.toNat := by
  have fits : 2 ^ w ≤ 256 ^ n := by
    rw [show 256 = 2 ^ 8 from rfl, ← pow_mul]
    exact Nat.pow_le_pow_right (by decide) h
  exact memRead_memWrite n m a v.toNat (v.isLt.trans_le fits)

/-- A register of at most a byte, written to one byte, stands there zero-extended. -/
theorem byteAt_memWrite_one {w : Nat} (v : BitVec w) (a : Nat) :
    byteAt (memWrite m a 1 v.toNat) a = v.setWidth 8 := by
  rw [byteAt_memWrite, if_pos (by omega), Nat.sub_self, pow_zero, Nat.div_one, BitVec.ofNat_toNat]

end

/-- Writing the number zero is zero padding. -/
theorem memWrite_zero (n : Nat) : ∀ (m : Memory) (a : Nat), memWrite m a n 0 = zeroFill m a n := by
  induction n with
  | zero => intro m a; rfl
  | succ n ih => intro m a; exact ih (setByte m a 0) (a + 1)

/-- Padding that goes on where the last one stopped is one padding. -/
theorem zeroFill_zeroFill (n k : Nat) : ∀ (m : Memory) (a : Nat),
    zeroFill (zeroFill m a n) (a + n) k = zeroFill m a (n + k) := by
  induction n with
  | zero => intro m a; rw [Nat.zero_add]; rfl
  | succ n ih =>
    intro m a
    rw [Nat.succ_add, zeroFill, zeroFill, ← ih, Nat.add_assoc, Nat.add_comm 1 n]

/-- A zero-extended register reads back in its own bits. -/
theorem extractLsb'_setWidth_own {w v : Nat} (x : BitVec w) (h : w ≤ v) : (x.setWidth v).extractLsb' 0 w = x := by
  apply BitVec.eq_of_getLsbD_eq
  intro j hj
  simp [hj, hj.trans_le h]

/-- A zero-extended register reads zero above its own bits. -/
theorem extractLsb'_setWidth_above {w k : Nat} (x : BitVec w) (v n : Nat) (h : w ≤ k) :
    (x.setWidth v).extractLsb' k n = 0 := by
  apply BitVec.eq_of_getLsbD_eq
  intro j _
  simp [BitVec.getLsbD_of_ge x (k + j) (by omega)]

/-! ### The bytes of the four frames -/

/-- Byte 2 of an encoder's frame (30_encoding.md R75 to R78); zero for the other commands. -/
def commandByteOf : Instr → Byte
  | .encSet => Config.cmdSet
  | .encGetReq => Config.cmdGet
  | .encState => Config.cmdState
  | .encGetResp => Config.cmdGet
  | _ => 0

section
variable {i : Instr} (s : State)

/-- Packing a frame writes its header, and past it only the offsets 3 to 25 (41_encode.md R95). -/
theorem byteAt_frameOf_outside_payload (encoder : isEncoderOp (opcodeOf i) = true) {a : Nat} (h : a < 3 ∨ 26 ≤ a) :
    byteAt (frameOf i s) a = byteAt (packHeader (commandByteOf i) s) a := by
  rw [frameOf, byteAt_setByte_other _ _ (by omega)]
  cases i
  case encSet | encGetReq | encState | encGetResp =>
    simp (disch := omega) only [packOf, packSet, packGetReq, packState, packGetResp, byteAt_zeroFill_other,
      byteAt_memWrite_other, commandByteOf]
  all_goals exact nomatch encoder

theorem headerIs_packHeader (command : Byte) : HeaderIs (packHeader command s) s.fAddr command := by
  simp [HeaderIs, packHeader, byteAt_memWrite]

theorem headerIs_frameOf (encoder : isEncoderOp (opcodeOf i) = true) :
    HeaderIs (frameOf i s) s.fAddr (commandByteOf i) := by
  have header {a : Nat} (h : a < 3) := byteAt_frameOf_outside_payload s encoder (.inl h)
  obtain ⟨start, address, command⟩ := headerIs_packHeader s (commandByteOf i)
  exact ⟨(header (by decide)).trans start, (header (by decide)).trans address, (header (by decide)).trans command⟩

theorem outsideFrameKept_frameOf (encoder : isEncoderOp (opcodeOf i) = true) :
    OutsideFrameKept s.fbuf (frameOf i s) := by
  intro a ha
  rw [byteAt_frameOf_outside_payload s encoder (.inr ha)]
  simp (disch := omega) only [packHeader, byteAt_memWrite_other]

/-- Zero padding up to offset 24 and the checksum byte not yet written leave zeros to the end of the frame. -/
theorem zeroBetween_padded (m : Memory) {a n : Nat} (h : a + n = 25) :
    ZeroBetween (setByte (zeroFill m a n) 25 0) a 25 := by
  intro a' hlow hhigh
  rw [byteAt_setByte, byteAt_zeroFill]
  split_ifs
  · rfl
  · rfl
  · omega

/-- Bytes 3 to 25 of the Set frame (30_encoding.md R75). -/
theorem frameOf_encSet_payload :
    memRead (frameOf .encSet s) 3 2 = s.fMaxI.toNat ∧ memRead (frameOf .encSet s) 5 2 = s.fMaxP.toNat ∧
    byteAt (frameOf .encSet s) 7 = s.fNewAddr ∧ byteAt (frameOf .encSet s) 8 = s.fKind ∧
    memRead (frameOf .encSet s) 9 2 = s.fValue.toNat ∧ ZeroBetween (frameOf .encSet s) 11 25 := by
  refine ⟨?_, ?_, ?_, ?_, ?_, zeroBetween_padded _ rfl⟩ <;>
    simp (disch := omega) only [frameOf, packOf, packSet, byteAt_setByte_other, byteAt_zeroFill_other,
      byteAt_memWrite_other, byteAt_memWrite_one, memRead_setByte_other, memRead_zeroFill_other,
      memRead_memWrite_other, memRead_memWrite_toNat, BitVec.setWidth_eq]

/-- Bytes 3 to 25 of the Get request (30_encoding.md R76). -/
theorem frameOf_encGetReq_payload : ZeroBetween (frameOf .encGetReq s) 3 25 := zeroBetween_padded _ rfl

/-- Bytes 3 to 25 of the State frame (30_encoding.md R78). -/
theorem frameOf_encState_payload :
    byteAt (frameOf .encState s) 3 = s.fState.setWidth 8 ∧ ZeroBetween (frameOf .encState s) 4 25 := by
  refine ⟨?_, zeroBetween_padded _ rfl⟩
  simp (disch := omega) only [frameOf, packOf, packState, byteAt_setByte_other, byteAt_zeroFill_other,
    byteAt_memWrite_one]

/-- Bytes 3 to 25 of the Get response (30_encoding.md R77). -/
theorem frameOf_encGetResp_payload :
    memRead (frameOf .encGetResp s) 3 2 = s.fCurrent.toNat ∧
    memRead (frameOf .encGetResp s) 5 4 = s.fVoltage.toNat ∧
    memRead (frameOf .encGetResp s) 9 2 = s.fPower.toNat ∧ memRead (frameOf .encGetResp s) 11 2 = s.fMaxI.toNat ∧
    memRead (frameOf .encGetResp s) 13 2 = s.fMaxP.toNat ∧ memRead (frameOf .encGetResp s) 15 2 = s.fRes.toNat ∧
    byteAt (frameOf .encGetResp s) 17 = s.fGStatus.setWidth 8 ∧ ZeroBetween (frameOf .encGetResp s) 18 25 := by
  refine ⟨?_, ?_, ?_, ?_, ?_, ?_, ?_, zeroBetween_padded _ rfl⟩ <;>
    simp (disch := omega) only [frameOf, packOf, packGetResp, byteAt_setByte_other, byteAt_zeroFill_other,
      byteAt_memWrite_one, memRead_setByte_other, memRead_zeroFill_other, memRead_memWrite_other,
      memRead_memWrite_toNat]

end

/-! ### The acceptance of an encoder -/

theorem encoder_of_eq {i : Instr} (h : i = .encSet ∨ i = .encGetReq ∨ i = .encState ∨ i = .encGetResp) :
    isEncoderOp (opcodeOf i) = true := by
  rcases h with rfl | rfl | rfl | rfl <;> rfl

/-- Every encoder but ENC.SET checks F_ADDR alone (41_encode.md R94). -/
theorem operandsValid_of_address {i : Instr} {s : State} (h : i ≠ .encSet) (address : s.fAddr ≠ 0xFF) :
    OperandsValid i s := ⟨address, fun hset => absurd hset h⟩

theorem startSending_started (i : Instr) (s : State) : Started (opcodeOf i) .tx s (s.startSending i) :=
  ⟨rfl, rfl, rfl, rfl, rfl, rfl, rfl, rfl, rfl⟩

theorem startSending_fbuf (i : Instr) (s : State) : (s.startSending i).fbuf = frameOf i s := rfl

theorem startSending_fieldsKept (i : Instr) (s : State) : FieldsKept s (s.startSending i) := fieldsKept_refl s

theorem startSending_outsideKept (i : Instr) (s : State) : OutsideKept s (s.startSending i) :=
  ⟨rfl, rfl, rfl, rfl, rfl, rfl⟩

/-- Settles O11: ENC.SET starts to send the Set frame. -/
theorem encSetPacksTheSetFrame : Obligations.EncSetPacksTheSetFrame := by
  intro s idle valid
  refine ⟨s.startSending .encSet, exec_encoder_of_idle rfl idle valid, startSending_started .encSet s, ?_⟩
  obtain ⟨maxI, maxP, newAddr, kind, value, zeros⟩ := frameOf_encSet_payload s
  rw [startSending_fbuf]
  exact ⟨headerIs_frameOf s rfl, maxI, maxP, newAddr, kind, value, zeros, outsideFrameKept_frameOf s rfl,
    startSending_fieldsKept .encSet s, startSending_outsideKept .encSet s⟩

/-- Settles O12: ENC.GETREQ starts to send the Get request. -/
theorem encGetReqPacksTheGetRequest : Obligations.EncGetReqPacksTheGetRequest := by
  intro s idle address
  have valid : OperandsValid .encGetReq s := operandsValid_of_address (by decide) address
  refine ⟨s.startSending .encGetReq, exec_encoder_of_idle rfl idle valid, startSending_started .encGetReq s, ?_⟩
  rw [startSending_fbuf]
  exact ⟨headerIs_frameOf s rfl, frameOf_encGetReq_payload s, outsideFrameKept_frameOf s rfl,
    startSending_fieldsKept .encGetReq s, startSending_outsideKept .encGetReq s⟩

/-- Settles O13: byte 3 of the State frame is F_STATE's two bits, zero-extended. -/
theorem encStatePacksTheStateFrame : Obligations.EncStatePacksTheStateFrame := by
  intro s idle address
  have valid : OperandsValid .encState s := operandsValid_of_address (by decide) address
  refine ⟨s.startSending .encState, exec_encoder_of_idle rfl idle valid, startSending_started .encState s, ?_⟩
  obtain ⟨state, zeros⟩ := frameOf_encState_payload s
  rw [startSending_fbuf, state]
  exact ⟨headerIs_frameOf s rfl, by simp, by simp, extractLsb'_setWidth_above s.fState 8 6 le_rfl, zeros,
    outsideFrameKept_frameOf s rfl, startSending_fieldsKept .encState s, startSending_outsideKept .encState s⟩

/-- Settles O14: byte 17 of the Get response is F_GSTATUS's six bits, zero-extended. -/
theorem encGetRespPacksTheGetResponse : Obligations.EncGetRespPacksTheGetResponse := by
  intro s idle address
  have valid : OperandsValid .encGetResp s := operandsValid_of_address (by decide) address
  refine ⟨s.startSending .encGetResp, exec_encoder_of_idle rfl idle valid, startSending_started .encGetResp s, ?_⟩
  obtain ⟨current, voltage, power, maxI, maxP, res, gstatus, zeros⟩ := frameOf_encGetResp_payload s
  rw [startSending_fbuf, gstatus]
  exact ⟨headerIs_frameOf s rfl, current, voltage, power, maxI, maxP, res,
    extractLsb'_setWidth_own s.fGStatus (by decide), extractLsb'_setWidth_above s.fGStatus 8 2 le_rfl, zeros,
    outsideFrameKept_frameOf s rfl, startSending_fieldsKept .encGetResp s, startSending_outsideKept .encGetResp s⟩

/-- A Get response of zeros is padded like a Get request (30_encoding.md R79). -/
theorem packGetResp_of_zero {s : State} (current : s.fCurrent = 0) (voltage : s.fVoltage = 0) (power : s.fPower = 0)
    (maxI : s.fMaxI = 0) (maxP : s.fMaxP = 0) (res : s.fRes = 0) (gstatus : s.fGStatus = 0) :
    packGetResp s = packGetReq s := by
  simp only [packGetResp, packGetReq, current, voltage, power, maxI, maxP, res, gstatus, BitVec.ofNat_eq_ofNat,
    BitVec.toNat_zero, memWrite_zero]
  simp only [zeroFill_zeroFill _ _ _ 3]

/-- Settles O16: the two frames are equal before they are sent. -/
theorem zeroGetResponseIsTheGetRequest : Obligations.ZeroGetResponseIsTheGetRequest := by
  intro s idle address current voltage power maxI maxP res gstatus
  have same : frameOf .encGetReq s = frameOf .encGetResp s :=
    congrArg (setByte · 25 0) (packGetResp_of_zero current voltage power maxI maxP res gstatus).symm
  refine ⟨s.startSending .encGetReq, s.startSending .encGetResp,
    exec_encoder_of_idle rfl idle (operandsValid_of_address (by decide) address),
    exec_encoder_of_idle rfl idle (operandsValid_of_address (by decide) address), ?_⟩
  rw [startSending_fbuf, startSending_fbuf, same]

/-- Of the two operand flags INVALID_ADDRESS is reported first (60_exceptions.md R117). -/
theorem priority_operandFlags {p q : Prop} [Decidable p] [Decidable q]
    (h : (if p then (0x002 : BitVec 9) else 0x000) ||| (if q then (0x004 : BitVec 9) else 0x000) ≠ 0) :
    priority ((if p then (0x002 : BitVec 9) else 0x000) ||| (if q then (0x004 : BitVec 9) else 0x000)) =
      if p then 2 else 3 := by
  split_ifs at h ⊢
  · rfl
  · rfl
  · rfl
  · exact absurd rfl h

/-- Settles O15: the checks change ERRF alone, and the completion reports the first flag. -/
theorem invalidOperandsEndTheEncoder : Obligations.InvalidOperandsEndTheEncoder := by
  intro i s encoder idle invalid
  have flagged := (encValidate_accept_eq_zero_iff i s).not.2 invalid
  rw [exec_of_idle i idle, acceptedBody_of_invalid (encoder_of_eq encoder) invalid, encValidate_eq]
  rw [encValidate_accept_errf] at flagged ⊢
  rw [complete_of_idle (by exact idle), priority_operandFlags flagged]
  simp [State.accept, not_decoder_of_encoder (encoder_of_eq encoder)]

/-! ### A frame in flight -/

/-- Settles O18: `txFail` raises its flag where none was set, and a legal state's clause about TX says the rest. -/
theorem failEndsTheEncoder : Obligations.FailEndsTheEncoder := by
  intro s ts k legal turns sink sending
  obtain ⟨-, cnt_le, sum, -, clear⟩ := legal.sending sending
  have clean := (legal.unfinished_of_busy (by simp [sending])).errf
  refine ⟨_, step_fail turns sink sending, ?_, fun _ => rfl, cnt_le, sum, clear⟩
  simp [txFail, State.complete, State.raise, clean, errorCode, errorFlag]

/-- Writing the checksum byte ends the frame (41_encode.md R96). -/
theorem frameBytes_setByte_last (m : Memory) (b : Byte) : frameBytes (setByte m 25 b) 26 = frameBytes m 25 ++ [b] := by
  rw [frameBytes_succ, frameBytes_setByte_of_le b le_rfl, byteAt_setByte_same]

/-- The run of `withSending` from idle sends the whole frame (41_encode.md R98). -/
theorem runSteps_withSending {i : Instr} {s : State} (encoder : isEncoderOp (opcodeOf i) = true)
    (idle : s.phase = .idle) (valid : OperandsValid i s) :
    runSteps 27 (withSending i s) = .next (s.afterSending i) := by
  have frame : frameOf i (withSending i s) = frameOf i s := by cases i <;> rfl
  refine (runSteps_encoder (s := withSending i s) (ts := s.turns) (h := s.host) (k := s.sink) encoder idle valid rfl rfl
    rfl).trans ?_
  simp only [State.afterSending, frame]
  rfl

/-- Settles O19: what is sent is the frame as packed, and then the sum that is stored as its last byte. -/
theorem encoderSendsItsWholeFrame : Obligations.EncoderSendsItsWholeFrame := by
  intro i s hi idle valid
  have encoder := encoder_of_eq hi
  have packed : frameBytes (s.afterSending i).fbuf 25 = frameBytes (frameOf i s) 25 :=
    frameBytes_setByte_of_le _ le_rfl
  refine ⟨_, _, exec_encoder_of_idle encoder idle valid, runSteps_withSending encoder idle valid, ?_, packed, ?_, ?_,
    rfl, ⟨rfl, rfl, rfl, rfl, rfl⟩, rfl, rfl, fieldsKept_refl s, rfl, rfl, rfl, rfl, rfl⟩
  · exact (List.append_assoc ..).trans (congrArg (s.txTrace ++ ·) (frameBytes_setByte_last _ _).symm)
  · exact (byteAt_setByte_same _ _ _).symm
  · rw [checksum, packed]
    exact foldl_accStep_zero_toNat _

/-- A TAKE neither reads nor writes a field register. -/
theorem txTake_of_writeField {r : Reg} {v : Word} {s t₁ : State} (h : txTake (writeField r v s) = .next t₁) :
    ∃ t, txTake s = .next t ∧ t₁ = writeField r v t := by
  have core := writeField_coreKept r v s
  rcases txTake_cases h with ⟨below, rfl⟩ | ⟨last, rfl⟩
  · exact ⟨_, txTake_below (core.cnt ▸ below), by cases r <;> rfl⟩
  · exact ⟨_, txTake_last (core.cnt ▸ last), by cases r <;> rfl⟩

theorem txFail_writeField (r : Reg) (v : Word) (s : State) : txFail (writeField r v s) = writeField r v (txFail s) := by
  cases r <;> rfl

theorem writeField_withSink (r : Reg) (v : Word) (s : State) (k : List TxAnswer) :
    { writeField r v s with sink := k } = writeField r v { s with sink := k } := by
  cases r <;> rfl

/-- A sink turn after a field write is the field write after the sink turn (70_reset_and_hazards.md R134). -/
theorem sinkTurn_of_writeField {r : Reg} {v : Word} {s t₁ : State} (h : sinkTurn (writeField r v s) = .next t₁) :
    ∃ t, sinkTurn s = .next t ∧ t₁ = writeField r v t := by
  have phase := (writeField_coreKept r v s).phase
  obtain ⟨-, sink, -⟩ := writeField_outsideKept r v s
  rcases sinkTurn_cases h with ⟨silent, rfl⟩ | ⟨sending, k, answer, htake⟩ | ⟨sending, k, answer, rfl⟩
  · rw [phase, sink] at silent
    refine ⟨s, ?_, rfl⟩
    rcases silent with waiting | noAnswer
    · exact if_neg waiting
    · simp [sinkTurn, noAnswer]
  · rw [phase] at sending
    rw [sink] at answer
    rw [writeField_withSink] at htake
    rw [sinkTurn_take sending answer]
    exact txTake_of_writeField htake
  · rw [phase] at sending
    rw [sink] at answer
    refine ⟨txFail { s with sink := k }, ?_, ?_⟩
    · simp [sinkTurn, sending, answer]
    · rw [writeField_withSink, txFail_writeField]

/-- Settles O20: a field write commutes with the sink turn, and keeps the trace and FBUF. -/
theorem fieldWritesDoNotReachTheFrameInFlight : Obligations.FieldWritesDoNotReachTheFrameInFlight := by
  intro r m v s s₁ t₁ hr _ written sent
  obtain ⟨hctrl, hcmd⟩ := fieldMasks_writable _ hr
  have write := hostWrite_writeField hctrl hcmd v
  rw [write] at written
  injection written with written
  subst written
  obtain ⟨t, turn, rfl⟩ := sinkTurn_of_writeField sent
  obtain ⟨-, -, -, -, trace, -⟩ := writeField_outsideKept r v t
  exact ⟨t, turn, trace.symm, (writeField_coreKept r v t).fbuf.symm, write t⟩

end Sys2Proof.Machine

/-!
The decoders' family (42_decode.md): the flags and the code of the three frame checks, what a decoder does from its
acceptance to its last answer, the views of the frame it holds, and the round trip from an encoder to a decoder.
-/

namespace Sys2Proof.Machine

/-! ### The three frame checks -/

/-- ERRF after the three frame checks, each with its own flag (90_conflicts.md C1): `p`, `q` and `r` say that start
byte, command byte and checksum are wrong. -/
def failedChecks (p q r : Prop) [Decidable p] [Decidable q] [Decidable r] : BitVec 9 :=
  (if p then 0x040 else 0x000) ||| (if q then 0x080 else 0x000) ||| (if r then 0x100 else 0x000)

theorem frameCheckFlags_eq_failedChecks (s : State) :
    frameCheckFlags s = failedChecks (byteAt s.fbuf 0 ≠ Config.startByte)
      (byteAt s.fbuf 2 ≠ expectedCommand s.lastOp) (byteAt s.fbuf 25 ≠ s.acc) := rfl

section
variable {p q r : Prop} [Decidable p] [Decidable q] [Decidable r]

/-- ERR is the first failing check in the order start, command, checksum (60_exceptions.md R117). -/
theorem priority_failedChecks :
    priority (failedChecks p q r) = if p then 7 else if q then 8 else if r then 9 else 0 := by
  unfold failedChecks
  split_ifs <;> rfl

theorem failedChecks_eq_zero_iff : failedChecks p q r = 0 ↔ ¬ p ∧ ¬ q ∧ ¬ r := by
  unfold failedChecks
  split_ifs <;> simp [*]

/-- CHECKSUM_MISMATCH is set whatever the other two checks find. -/
theorem failedChecks_checksum (h : r) : (failedChecks p q r).getLsbD 8 = true := by
  unfold failedChecks
  rw [if_pos h]
  split_ifs <;> rfl

end

theorem priority_frameCheckFlags_eq_zero_iff (s : State) :
    priority (frameCheckFlags s) = 0 ↔ frameCheckFlags s = 0 :=
  ⟨flags_zero_of_priority_zero _ (frameCheckFlags_possible s), fun h => h ▸ priority_zero⟩

/-- With no flag set before, the frame checks leave theirs, the first as ERR, and DVALID where there is none
(42_decode.md R105). -/
theorem rxComplete_of_clean {s : State} (clean : s.errf = 0) :
    rxComplete s = { s with
      phase := .idle, done := true, errf := frameCheckFlags s, err := priority (frameCheckFlags s)
      dvalid := decide (frameCheckFlags s = 0) && isDecoderOp s.lastOp } := by
  have flags : s.errf ||| frameCheckFlags s = frameCheckFlags s := by simp [clean]
  have passed : (priority (frameCheckFlags s) == 0) = decide (frameCheckFlags s = 0) := by
    rw [Bool.eq_iff_iff, beq_iff_eq, decide_eq_true_iff, priority_frameCheckFlags_eq_zero_iff]
  rw [rxComplete_eq, flags, State.complete, passed]

/-! ### A whole frame checked -/

/-- The flags of a frame of 26 bytes for the decoder that expects `command` (42_decode.md R105). -/
def frameFlags (command : Byte) (bs : List Byte) : BitVec 9 :=
  failedChecks (bs.getD 0 0 ≠ Config.startByte) (bs.getD 2 0 ≠ command)
    ((bs.getD 25 0).toNat ≠ byteSum (bs.take 25) % 256)

/-- `s` after the decoder `d` has taken and checked the 26 bytes `bs` (42_decode.md R105). -/
def State.afterChecking (s : State) (d : Instr × Byte) (bs : List Byte) : State :=
  { s.receivedAll d.1 bs with
    phase := .idle, done := true, errf := frameFlags d.2 bs, err := priority (frameFlags d.2 bs)
    dvalid := decide (frameFlags d.2 bs = 0) }

section
variable (s : State) (d : Instr × Byte) (bs : List Byte)

@[simp] theorem afterChecking_phase : (s.afterChecking d bs).phase = .idle := rfl
@[simp] theorem afterChecking_lastOp : (s.afterChecking d bs).lastOp = opcodeOf d.1 := rfl
@[simp] theorem afterChecking_cnt : (s.afterChecking d bs).cnt = 26 := rfl
@[simp] theorem afterChecking_acc : (s.afterChecking d bs).acc = (bs.take 25).foldl accStep 0 := rfl
@[simp] theorem afterChecking_fbuf : (s.afterChecking d bs).fbuf = (s.receivedAll d.1 bs).fbuf := rfl
@[simp] theorem afterChecking_done : (s.afterChecking d bs).done = true := rfl
@[simp] theorem afterChecking_ovr : (s.afterChecking d bs).ovr = s.ovr := rfl
@[simp] theorem afterChecking_errf : (s.afterChecking d bs).errf = frameFlags d.2 bs := rfl
@[simp] theorem afterChecking_err : (s.afterChecking d bs).err = priority (frameFlags d.2 bs) := rfl
@[simp] theorem afterChecking_dvalid : (s.afterChecking d bs).dvalid = decide (frameFlags d.2 bs = 0) := rfl

end

theorem decoders_expectedCommand : ∀ d ∈ decoders, expectedCommand (opcodeOf d.1) = d.2 := by decide

theorem receivedAll_byteAt (s : State) (i : Instr) {bs : List Byte} {a : Nat} (h : a < bs.length) :
    byteAt (s.receivedAll i bs).fbuf a = bs.getD a 0 :=
  byteAt_storeBytes_zero _ h

theorem receivedAll_frameBytes (s : State) (i : Instr) {bs : List Byte} (whole : bs.length = 26) :
    frameBytes (s.receivedAll i bs).fbuf 26 = bs :=
  whole ▸ frameBytes_storeBytes _ bs

/-- The checks look at the bytes received alone. -/
theorem frameCheckFlags_receivedAll {d : Instr × Byte} {bs : List Byte} (hd : d ∈ decoders) (whole : bs.length = 26)
    (s : State) : frameCheckFlags (s.receivedAll d.1 bs) = frameFlags d.2 bs := by
  have byte {a : Nat} (ha : a < 26) := receivedAll_byteAt s d.1 (bs := bs) (whole ▸ ha)
  have command : expectedCommand (s.receivedAll d.1 bs).lastOp = d.2 := decoders_expectedCommand d hd
  have sum : (s.receivedAll d.1 bs).acc.toNat = byteSum (bs.take 25) % 256 := foldl_accStep_zero_toNat _
  simp only [frameCheckFlags_eq_failedChecks, frameFlags, byte (show 0 < 26 by decide), byte (show 2 < 26 by decide),
    byte (show 25 < 26 by decide), command, ← sum, ne_eq, BitVec.toNat_inj]

theorem runSteps_withReceiving_checked {d : Instr × Byte} {bs : List Byte} {s : State} (hd : d ∈ decoders)
    (idle : s.phase = .idle) (whole : bs.length = 26) :
    runSteps 27 (withReceiving d.1 bs s) = .next (s.afterChecking d bs) := by
  have decoder : isDecoderOp (s.receivedAll d.1 bs).lastOp = true := decoders_isDecoderOp d hd
  rw [runSteps_withReceiving (decoders_isDecoderOp d hd) idle whole, rxComplete_of_clean rfl,
    frameCheckFlags_receivedAll hd whole, decoder, Bool.and_true]
  rfl

/-- Settles O25: the frame is stored and summed as it comes, and its flags are `frameFlags`. -/
theorem decoderReceivesAndChecksItsFrame : Obligations.DecoderReceivesAndChecksItsFrame := by
  intro d bs s hd whole idle
  refine ⟨s.afterChecking d bs, runSteps_withReceiving_checked hd idle whole, ?_, ?_, rfl, rfl, rfl, rfl, rfl, rfl, ?_,
    ?_, fieldsKept_refl s, ⟨rfl, rfl, rfl, rfl, rfl, rfl⟩⟩
  · rw [afterChecking_fbuf, receivedAll_frameBytes s d.1 whole]
  · rw [afterChecking_acc, foldl_accStep_zero_toNat]
  · rw [afterChecking_err, frameFlags, priority_failedChecks]
    rfl
  · rw [afterChecking_dvalid, afterChecking_errf, decide_eq_true_iff]

/-! ### The views -/

/-- D_HDR shows four bytes of FBUF, each in its place (42_decode.md R108). -/
theorem headerView_parts (b0 b1 b2 b25 : Byte) (w : BitVec (8 + 8 + 8 + 8)) (hw : w = b25 ++ b2 ++ b1 ++ b0) :
    w.extractLsb' 0 8 = b0 ∧ w.extractLsb' 8 8 = b1 ∧ w.extractLsb' 16 8 = b2 ∧ w.extractLsb' 24 8 = b25 := by
  subst hw
  refine ⟨?_, ?_, ?_, ?_⟩
  all_goals
    simp only [BitVec.extractLsb'_append_eq_ite]
    simp

theorem memRead_one (m : Memory) (a : Nat) : memRead m a 1 = (byteAt m a).toNat := rfl

/-- The low `k` bits of a byte as a register. -/
theorem lowBits_toNat (b : Byte) {k : Nat} (h : k ≤ 32) :
    ((b.extractLsb' 0 k).setWidth 32).toNat = b.toNat % 2 ^ k := by
  rw [BitVec.toNat_setWidth_of_le h, BitVec.extractLsb'_toNat, Nat.shiftRight_zero]

/-- Settles O39, register by register: D_HDR's four bytes, the little-endian numbers, and the low bits of a byte. -/
theorem viewsAreFunctionsOfFbuf : Obligations.ViewsAreFunctionsOfFbuf := by
  intro s
  have number (r : Reg) (a n : Nat) (hn : n ≤ 4) (hr : readReg r s = fbufField s.fbuf a n) :
      (readIndex (regIndex r) s).toNat = memRead s.fbuf a n := by
    rw [readIndex_regIndex, hr, fbufField_toNat s.fbuf a hn]
  have header : readIndex 0x18 s = _ := readIndex_regIndex .dHdr s
  have flags : readIndex 0x1F s = _ := readIndex_regIndex .dgFlags s
  have state : readIndex 0x25 s = _ := readIndex_regIndex .dtState s
  exact ⟨headerView_parts _ _ _ _ _ header,
    number .dgCurrent 3 2 (by decide) rfl, number .dgVoltage 5 4 (by decide) rfl,
    number .dgPower 9 2 (by decide) rfl, number .dgMaxI 11 2 (by decide) rfl, number .dgMaxP 13 2 (by decide) rfl,
    number .dgRes 15 2 (by decide) rfl, flags ▸ lowBits_toNat _ (by decide),
    number .dsMaxI 3 2 (by decide) rfl, number .dsMaxP 5 2 (by decide) rfl, number .dsNewAddr 7 1 (by decide) rfl,
    number .dsKind 8 1 (by decide) rfl, number .dsValue 9 2 (by decide) rfl, state ▸ lowBits_toNat _ (by decide)⟩

/-! ### From an encoder to a decoder -/

theorem frameBytes_getD (m : Memory) {n a : Nat} (h : a < n) : (frameBytes m n).getD a 0 = byteAt m a := by
  simp [frameBytes, h]

/-- An encoder sends the 26 bytes it leaves in FBUF (41_encode.md R98). -/
theorem txTrace_afterSending (i : Instr) (s : State) :
    (s.afterSending i).txTrace = s.txTrace ++ frameBytes (s.afterSending i).fbuf 26 :=
  (List.append_assoc ..).trans (congrArg (s.txTrace ++ ·) (frameBytes_setByte_last _ _).symm)

/-- The checksum byte alone is written while the frame is sent (41_encode.md R96). -/
theorem afterSending_byteAt (i : Instr) (s : State) {a : Nat} (h : a < 25) :
    byteAt (s.afterSending i).fbuf a = byteAt (frameOf i s) a :=
  byteAt_setByte_other _ _ (by omega)

theorem afterDecoding_byteAt (s : State) (i : Instr) {bs : List Byte} {a : Nat} (h : a < bs.length) :
    byteAt (s.afterDecoding i bs).fbuf a = bs.getD a 0 :=
  receivedAll_byteAt s i h

/-- The checksum an encoder sends is the one a decoder computes (40_checksum.md R88, 42_decode.md R113). -/
theorem accepted_afterSending {i : Instr} {opc : Byte} (s : State) (encoder : isEncoderOp (opcodeOf i) = true)
    (expected : expectedCommand opc = commandByteOf i) :
    FrameAccepted opc (frameBytes (s.afterSending i).fbuf 26) := by
  have sent : frameBytes (s.afterSending i).fbuf 26 = frameBytes (frameOf i s) 25 ++ [frameSum (frameOf i s)] :=
    frameBytes_setByte_last _ _
  have last : byteAt (s.afterSending i).fbuf 25 = frameSum (frameOf i s) := byteAt_setByte_same _ _ _
  obtain ⟨start, -, command⟩ := headerIs_frameOf s encoder
  refine ⟨frameBytes_length _ _, ?_, ?_, ?_⟩
  · rw [frameBytes_getD _ (by decide), afterSending_byteAt i s (by decide), start]
  · rw [frameBytes_getD _ (by decide), afterSending_byteAt i s (by decide), command, expected]
  · rw [frameBytes_getD _ (by decide), last, sent, List.take_left' (frameBytes_length _ _), frameSum,
      foldl_accStep_zero_toNat]

/-- The bytes an encoder sends, delivered to the decoder of the same command byte, are accepted, and the decoder then
holds the frame as the encoder packed it (42_decode.md R113). -/
theorem frame_roundTrip {i j : Instr} {s : State} (encoder : isEncoderOp (opcodeOf i) = true)
    (decoder : isDecoderOp (opcodeOf j) = true) (expected : expectedCommand (opcodeOf j) = commandByteOf i)
    (idle : s.phase = .idle) (valid : OperandsValid i s) :
    ∃ u t, runSteps 27 (withSending i s) = .next u ∧ (u.txTrace.drop s.txTrace.length).length = 26 ∧
      runSteps 27 (withReceiving j (u.txTrace.drop s.txTrace.length) u) = .next t ∧ t.err = 0 ∧ t.dvalid = true ∧
      ∀ a < 25, byteAt (frameOf i s) a = byteAt t.fbuf a := by
  have sent : (s.afterSending i).txTrace.drop s.txTrace.length = frameBytes (s.afterSending i).fbuf 26 := by
    rw [txTrace_afterSending, List.drop_left]
  have accepted := accepted_afterSending s encoder expected
  refine ⟨s.afterSending i, (s.afterSending i).afterDecoding j (frameBytes (s.afterSending i).fbuf 26),
    runSteps_withSending encoder idle valid, ?_, ?_, rfl, rfl, fun a ha => ?_⟩
  · rw [sent, accepted.whole]
  · rw [sent]
    exact runSteps_withReceiving_of_accepted decoder rfl accepted
  · rw [afterDecoding_byteAt _ j (by rw [accepted.whole]; omega), frameBytes_getD _ (by omega),
      afterSending_byteAt i s ha]

section
variable {m m' : Memory}

/-- A view of a number of the frame reads the register that was packed there. -/
theorem fbufField_of_packed (same : ∀ a < 25, byteAt m a = byteAt m' a) {w a n : Nat} {v : BitVec w}
    (packed : memRead m a n = v.toNat) (h : a + n ≤ 25) : fbufField m' a n = v.setWidth 32 := by
  rw [fbufField, ← memRead_congr n a fun k _ _ => same k (by omega), packed, BitVec.ofNat_toNat]

/-- A view of the low bits of byte `a` reads the register of so many bits that was packed there. -/
theorem lowBits_of_packed (same : ∀ a < 25, byteAt m a = byteAt m' a) {w a : Nat} {v : BitVec w}
    (packed : byteAt m a = v.setWidth 8) (hw : w ≤ 8) (h : a < 25) :
    ((byteAt m' a).extractLsb' 0 w).setWidth 32 = v.setWidth 32 := by
  rw [← same a h, packed, extractLsb'_setWidth_own v hw]

/-- D_HDR's second byte is the address (30_encoding.md R74). -/
theorem headerView_address {t : State} (same : ∀ a < 25, byteAt m a = byteAt t.fbuf a) {address command : Byte}
    (header : HeaderIs m address command) : (readReg .dHdr t).extractLsb' 8 8 = address := by
  obtain ⟨-, shown, -⟩ := headerView_parts _ _ _ _ (readReg .dHdr t) rfl
  obtain ⟨-, packed, -⟩ := header
  exact shown.trans ((same 1 (by decide)).symm.trans packed)

end

/-- Settles O29: the DS_ views read the fields that ENC.SET packed. -/
theorem setFrameRoundTrips : Obligations.SetFrameRoundTrips := by
  intro s idle valid
  obtain ⟨u, t, sent, whole, received, err, dvalid, same⟩ := frame_roundTrip (i := .encSet) (j := .decSet) rfl rfl
    rfl idle valid
  obtain ⟨maxI, maxP, newAddr, kind, value, -⟩ := frameOf_encSet_payload s
  exact ⟨u, t, sent, whole, received, err, dvalid, fbufField_of_packed same maxI (by decide),
    fbufField_of_packed same maxP (by decide),
    fbufField_of_packed same ((memRead_one _ 7).trans (congrArg _ newAddr)) (by decide),
    fbufField_of_packed same ((memRead_one _ 8).trans (congrArg _ kind)) (by decide),
    fbufField_of_packed same value (by decide), headerView_address same (headerIs_frameOf s rfl)⟩

/-- Settles O30: the DG_ views read the fields that ENC.GETRESP packed. -/
theorem getResponseRoundTrips : Obligations.GetResponseRoundTrips := by
  intro s idle address
  obtain ⟨u, t, sent, whole, received, err, dvalid, same⟩ := frame_roundTrip (i := .encGetResp) (j := .decGet) rfl rfl
    rfl idle (operandsValid_of_address (by decide) address)
  obtain ⟨current, voltage, power, maxI, maxP, res, gstatus, -⟩ := frameOf_encGetResp_payload s
  exact ⟨u, t, sent, whole, received, err, dvalid, fbufField_of_packed same current (by decide),
    (fbufField_of_packed same voltage (by decide)).trans (BitVec.setWidth_eq _),
    fbufField_of_packed same power (by decide), fbufField_of_packed same maxI (by decide),
    fbufField_of_packed same maxP (by decide), fbufField_of_packed same res (by decide),
    lowBits_of_packed same gstatus (by decide) (by decide), headerView_address same (headerIs_frameOf s rfl)⟩

/-- Settles O31: DT_STATE reads the two bits that ENC.STATE packed. -/
theorem stateFrameRoundTrips : Obligations.StateFrameRoundTrips := by
  intro s idle address
  obtain ⟨u, t, sent, whole, received, err, dvalid, same⟩ := frame_roundTrip (i := .encState) (j := .decState) rfl rfl
    rfl idle (operandsValid_of_address (by decide) address)
  obtain ⟨state, -⟩ := frameOf_encState_payload s
  exact ⟨u, t, sent, whole, received, err, dvalid, lowBits_of_packed same state (by decide) (by decide),
    headerView_address same (headerIs_frameOf s rfl)⟩

/-! ### One answer of the RX source -/

/-- Acceptance clears the frame and leaves what lies past it (42_decode.md R103). -/
theorem startReceiving_byteAt (s : State) (i : Instr) (a : Nat) :
    byteAt (s.startReceiving i).fbuf a = if a < 26 then 0 else byteAt s.fbuf a := by
  rw [State.startReceiving, byteAt_zeroFill]
  simp [Config.frameLen]

/-- Settles O21: acceptance is `startReceiving`, which clears offsets 0 to 25 alone. -/
theorem decodersStartToReceive : Obligations.DecodersStartToReceive := by
  intro i s hi idle
  have decoder : isDecoderOp (opcodeOf i) = true := by rcases hi with rfl | rfl | rfl <;> rfl
  refine ⟨s.startReceiving i, exec_decoder_of_idle decoder idle, ⟨rfl, rfl, rfl, rfl, rfl, rfl, rfl, rfl, rfl⟩,
    fun a _ ha => ?_, fun a ha => ?_, fieldsKept_refl s, ⟨rfl, rfl, rfl, rfl, rfl, rfl⟩⟩
  · rw [startReceiving_byteAt, if_pos (by omega)]
  · rw [startReceiving_byteAt, if_neg (by omega)]

/-- Settles O22: the byte goes to FBUF[CNT] and into the sum. -/
theorem deliverStoresAndSumsTheByte : Obligations.DeliverStoresAndSumsTheByte := by
  intro s ts b k turns source receiving below
  refine ⟨_, (step_deliver turns source receiving).trans (rxDeliver_below (by exact below)), ?_,
    byteAt_setByte_same _ _ _, fun a ha => byteAt_setByte_other _ _ (Ne.symm ha)⟩
  rw [add_eq_ofNat_mod]

/-- Settles O23: the byte stored at offset 25 is compared with ACC, and the other two checks read bytes it left. -/
theorem lastDeliverChecksTheFrame : Obligations.LastDeliverChecksTheFrame := by
  intro s ts b k turns source receiving last clean
  have cnt : s.cnt + 1 = 26 := by rw [BitVec.eq_of_toNat_eq (y := 25) last]; rfl
  have other {a : Nat} (h : a ≠ 25) : byteAt (setByte s.fbuf 25 b) a = byteAt s.fbuf a :=
    byteAt_setByte_other _ _ (Ne.symm h)
  have run := (step_deliver turns source receiving).trans (rxDeliver_last (by exact last))
  rw [rxComplete_of_clean (by exact clean)] at run
  refine ⟨_, run, ?_, by simp [last], fun a ha => by simp only [last]; exact other ha⟩
  simp only [frameCheckFlags_eq_failedChecks, last, other (show 0 ≠ 25 by decide), other (show 2 ≠ 25 by decide),
    byteAt_setByte_same, priority_failedChecks, failedChecks_eq_zero_iff, not_not, cnt, ne_eq]
  rfl

/-- With no flag set before, a TIMEOUT leaves its own, STREAM_TIMEOUT before the first byte and SHORT_READ after it
(42_decode.md R106). -/
theorem rxTimeout_of_clean {s : State} (clean : s.errf = 0) :
    rxTimeout s = { s with
      phase := .idle, done := true, dvalid := false, err := if s.cnt = 0 then 5 else 6
      errf := if s.cnt = 0 then 0x010 else 0x020 } := by
  unfold rxTimeout
  split_ifs
  all_goals
    simp only [State.complete, State.raise, clean]
    rfl

/-- Settles O24: `rxTimeout` changes no byte, and a legal state's clause about RX says the rest. -/
theorem timeoutEndsTheDecoder : Obligations.TimeoutEndsTheDecoder := by
  intro s ts k legal turns source receiving
  obtain ⟨-, cnt_le, sum, clear⟩ := legal.receiving receiving
  have clean := (legal.unfinished_of_busy (by simp [receiving])).errf
  have run := step_timeout turns source receiving
  rw [rxTimeout_of_clean (by exact clean)] at run
  exact ⟨_, run, rfl, fun _ => rfl, cnt_le, sum, clear⟩

/-! ### A frame cut short -/

/-- `s` after the decoder `i` was given the bytes `bs`, fewer than 26, and a TIMEOUT (42_decode.md R106). -/
def State.afterTimeout (s : State) (i : Instr) (bs : List Byte) : State :=
  { s.startReceiving i with
    cnt := BitVec.ofNat 5 bs.length, acc := bs.foldl accStep 0, fbuf := storeBytes (s.startReceiving i).fbuf 0 bs
    phase := .idle, done := true, dvalid := false, err := if bs = [] then 5 else 6
    errf := if bs = [] then 0x010 else 0x020 }

theorem ofNat_length_eq_zero_iff {bs : List Byte} (short : bs.length < 26) :
    BitVec.ofNat 5 bs.length = 0 ↔ bs = [] := by
  rw [← BitVec.toNat_inj, BitVec.toNat_ofNat, Nat.mod_eq_of_lt (by omega), ← List.length_eq_zero_iff]
  rfl

/-- Fewer than 26 DELIVERs from the start of a frame store it and sum it (42_decode.md R104). -/
theorem runSteps_delivers_short {bs : List Byte} {s : State} {ts : List Agent} {k : List RxAnswer}
    (receiving : s.phase = .rx) (start : s.cnt = 0) (short : bs.length < 26)
    (turns : s.turns = List.replicate bs.length .rxSource ++ ts) (source : s.source = bs.map .deliver ++ k) :
    runSteps bs.length s = .next { s with
      turns := ts, source := k, fbuf := storeBytes s.fbuf 0 bs, acc := bs.foldl accStep s.acc
      cnt := BitVec.ofNat 5 bs.length } := by
  have run := runSteps_delivers bs receiving (by simp [start]; omega) turns source
  simpa [start] using run

/-- A decoder accepted while idle stores and sums the bytes it is given until the TIMEOUT (42_decode.md R103, R104,
R106). -/
theorem runSteps_decoder_timeout {i : Instr} {bs : List Byte} {s : State} {ts : List Agent} {h : List HostOp}
    {k : List RxAnswer} (decoder : isDecoderOp (opcodeOf i) = true) (short : bs.length < 26) (idle : s.phase = .idle)
    (turns : s.turns = .host :: List.replicate (bs.length + 1) .rxSource ++ ts) (host : s.host = commandLine i :: h)
    (source : s.source = bs.map .deliver ++ .timeout :: k) :
    runSteps (bs.length + 2) s = .next { s.afterTimeout i bs with turns := ts, host := h, source := k } := by
  have turns' : s.turns = .host :: (List.replicate bs.length .rxSource ++ .rxSource :: ts) := by
    rw [turns, List.replicate_succ', List.cons_append, List.append_assoc, List.singleton_append]
  have accepted := (step_commandLine turns' host).trans (exec_decoder_of_idle decoder idle)
  have delivered := runSteps_delivers_short (k := .timeout :: k) (ts := .rxSource :: ts)
    (s := State.startReceiving { s with turns := List.replicate bs.length .rxSource ++ .rxSource :: ts, host := h } i)
    rfl rfl short rfl source
  refine (runSteps_succ accepted).trans ((runSteps_add 1 bs.length delivered).trans (runSteps_succ ?_))
  refine (step_timeout rfl rfl rfl).trans ?_
  rw [rxTimeout_of_clean rfl]
  simp only [State.startReceiving, State.afterTimeout, ofNat_length_eq_zero_iff short]

/-- Settles O26, by the state that `runSteps_decoder_timeout` ends in. -/
theorem shortFrameEndsInATimeoutError : Obligations.ShortFrameEndsInATimeoutError := by
  intro d bs s ts h k hd short idle turns host source
  refine ⟨_, runSteps_decoder_timeout (decoders_isDecoderOp d hd) short idle turns host source,
    frameBytes_storeBytes _ bs, fun a low high => ?_, foldl_accStep_zero_toNat bs, ?_, rfl, rfl, rfl, rfl, rfl, rfl,
    fieldsKept_refl s⟩
  · rw [State.afterTimeout, byteAt_storeBytes, if_neg (by omega), startReceiving_byteAt, if_pos (by omega)]
  · exact (BitVec.toNat_ofNat _ _).trans (Nat.mod_eq_of_lt (by omega))

/-! ### A frame changed -/

/-- A changed byte is found where it was changed and nowhere else. -/
theorem getD_set_ne_iff {bs : List Byte} {j k : Nat} {b c : Byte} (hj : j < bs.length) (changed : b ≠ bs.getD j 0)
    (old : bs.getD k 0 = c) : (bs.set j b).getD k 0 ≠ c ↔ j = k := by
  by_cases h : j = k
  · subst h old
    simpa [hj] using changed
  · simp [← old, List.getElem?_set_ne h, h]

/-- One changed byte, the checksum byte included, breaks the checksum (40_checksum.md R93). -/
theorem FrameAccepted.sum_ne_of_set {opc : Byte} {bs : List Byte} (h : FrameAccepted opc bs) {j : Nat} {b : Byte}
    (hj : j < 26) (changed : b ≠ bs.getD j 0) :
    ((bs.set j b).getD 25 0).toNat ≠ byteSum ((bs.set j b).take 25) % 256 := by
  obtain ⟨whole, -, -, sum⟩ := h
  rw [← foldl_accStep_zero_toNat, BitVec.toNat_inj] at sum
  rw [← foldl_accStep_zero_toNat, ne_eq, BitVec.toNat_inj]
  by_cases last : j = 25
  · subst last
    rw [List.take_set_of_le le_rfl, ← sum]
    exact (getD_set_ne_iff (by omega) changed rfl).2 rfl
  · have kept : (bs.set j b).getD 25 0 = bs.getD 25 0 :=
      not_not.1 fun hne => last ((getD_set_ne_iff (by omega) changed rfl).1 hne)
    rw [kept, sum, List.take_set]
    refine Ne.symm (foldl_accStep_set_ne _ ?_ ?_)
    · rw [List.length_take]; omega
    · simpa [List.getElem?_take, show j < 25 by omega] using changed

/-- A frame with any byte but 0, 2 and 25 edited and its checksum recomputed is accepted again (42_decode.md R114). -/
theorem FrameAccepted.set_recomputed {opc : Byte} {bs : List Byte} (h : FrameAccepted opc bs) {j : Nat} (b : Byte)
    (hstart : j ≠ 0) (hcommand : j ≠ 2) :
    FrameAccepted opc ((bs.set j b).set 25 (BitVec.ofNat 8 (byteSum ((bs.set j b).take 25)))) where
  whole := by simp [h.whole]
  start := by simpa [List.getElem?_set_ne hstart] using h.start
  command := by simpa [List.getElem?_set_ne hcommand] using h.command
  sum := by
    rw [List.take_set_of_le le_rfl]
    simp [h.whole]

/-- Settles O27: a changed byte breaks the checksum and the check of its own offset, and a recomputed checksum
passes. -/
theorem oneChangedByteIsAlwaysDetected : Obligations.OneChangedByteIsAlwaysDetected := by
  intro d bs s t hd whole idle run err
  have decoder := decoders_isDecoderOp d hd
  have accepted := accepted_of_err_eq_zero decoder idle whole run err
  refine ⟨fun j b hj changed => ?_, fun j b _ hstart hcommand => ?_⟩
  · have mismatch := accepted.sum_ne_of_set hj changed
    have start := getD_set_ne_iff (whole ▸ hj) changed accepted.start
    have command := getD_set_ne_iff (whole ▸ hj) changed
      (accepted.command.trans (decoders_expectedCommand d hd))
    refine ⟨_, runSteps_withReceiving_checked hd idle (by rw [List.length_set, whole]),
      failedChecks_checksum mismatch, ?_, ?_⟩
    · exact decide_eq_false fun passed => (failedChecks_eq_zero_iff.1 passed).2.2 mismatch
    · refine priority_failedChecks.trans ?_
      simp only [start, command, if_pos mismatch]
  · have edited := accepted.set_recomputed b hstart hcommand
    exact ⟨_, runSteps_withReceiving_of_accepted decoder idle edited, rfl, rfl⟩

/-! ### What a decoder's result depends on -/

theorem fbufField_congr {m m' : Memory} (same : ∀ a < 26, byteAt m a = byteAt m' a) {a n : Nat} (h : a + n ≤ 26) :
    fbufField m a n = fbufField m' a n := by
  rw [fbufField, fbufField, memRead_congr n a fun k _ _ => same k (by omega)]

/-- The read-only registers but STATUS show ERRF, ACC and the frame's 26 bytes (20_memory.md R47, R48, R50;
42_decode.md R108). -/
theorem readReg_congr_of_frame {s t : State} (errf : s.errf = t.errf) (acc : s.acc = t.acc)
    (same : ∀ a < 26, byteAt s.fbuf a = byteAt t.fbuf a) {r : Reg} (hr : r ∈ readOnlyRegs) (hstatus : r ≠ .status) :
    readReg r s = readReg r t := by
  cases r
  case status => exact absurd rfl hstatus
  case errf => simp only [readReg, errf]
  case acc => simp only [readReg, acc]
  case dHdr => simp only [readReg, same 0, same 1, same 2, same 25, Nat.reduceLT]
  case dgFlags => simp only [readReg, same 17, Nat.reduceLT]
  case dtState => simp only [readReg, same 3, Nat.reduceLT]
  case fbuf0 | fbuf1 | fbuf2 | fbuf3 | fbuf4 | fbuf5 | fbuf6 | dgCurrent | dgVoltage | dgPower | dgMaxI | dgMaxP
      | dgRes | dsMaxI | dsMaxP | dsNewAddr | dsKind | dsValue => exact fbufField_congr same (by decide)
  all_goals exact absurd hr (by decide)

/-- Settles O28: after its checks a decoder holds nothing of the state before it that a read-only register shows, but
OVR. -/
theorem decoderResultIsAFunctionOfTheBytes : Obligations.DecoderResultIsAFunctionOfTheBytes := by
  intro d bs s₁ s₂ t₁ t₂ hd whole idle₁ idle₂ run₁ run₂
  rw [runSteps_withReceiving_checked hd idle₁ whole] at run₁
  rw [runSteps_withReceiving_checked hd idle₂ whole] at run₂
  obtain rfl := Host.Outcome.next.inj run₁
  obtain rfl := Host.Outcome.next.inj run₂
  refine ⟨fun r hr hstatus => readReg_congr_of_frame ?_ ?_ (fun a ha => ?_) hr hstatus, fun ovr => ?_⟩
  · rw [afterChecking_errf, afterChecking_errf]
  · rw [afterChecking_acc, afterChecking_acc]
  · rw [afterChecking_fbuf, afterChecking_fbuf, receivedAll_byteAt s₁ d.1 (whole ▸ ha),
      receivedAll_byteAt s₂ d.1 (whole ▸ ha)]
  · simp [readReg, statusWord, State.busy, ovr]

end Sys2Proof.Machine

/-!
The errors' family (60_exceptions.md): the code that ERR reports is the lowest whose flag is set, and no step from a
legal state ends in a fault or a refusal.
-/

namespace Sys2Proof.Machine

/-! ### The priority of the flags -/

/-- The search from code `n` over `fuel` codes finds none, or the first in its range whose flag is set. -/
theorem lowestFlag_cases (f : BitVec 9) (fuel : Nat) : ∀ n : Nat,
    (lowestFlag f n fuel = 0 ∧ ∀ m, n ≤ m → m < n + fuel → f.getLsbD (m - 1) = false) ∨
    (n ≤ lowestFlag f n fuel ∧ lowestFlag f n fuel < n + fuel ∧ f.getLsbD (lowestFlag f n fuel - 1) = true ∧
      ∀ m, n ≤ m → m < lowestFlag f n fuel → f.getLsbD (m - 1) = false) := by
  induction fuel with
  | zero => exact fun n => .inl ⟨rfl, fun m _ _ => by omega⟩
  | succ fuel ih =>
    intro n
    cases hflag : f.getLsbD (n - 1) with
    | true =>
      have found : lowestFlag f n (fuel + 1) = n := if_pos hflag
      rw [found]
      exact .inr ⟨le_rfl, by omega, hflag, fun m _ _ => by omega⟩
    | false =>
      have skipped : lowestFlag f n (fuel + 1) = lowestFlag f (n + 1) fuel := if_neg (Bool.eq_false_iff.1 hflag)
      have clear {m : Nat} (above : n + 1 ≤ m → f.getLsbD (m - 1) = false) (hm : n ≤ m) :
          f.getLsbD (m - 1) = false :=
        hm.eq_or_lt.elim (fun heq => heq ▸ hflag) above
      rw [skipped]
      rcases ih (n + 1) with ⟨absent, hclear⟩ | ⟨hle, hlt, hset, hclear⟩
      · exact .inl ⟨absent, fun m hm hlt => clear (fun h => hclear m h (by omega)) hm⟩
      · exact .inr ⟨by omega, by omega, hset, fun m hm hlt => clear (fun h => hclear m h hlt) hm⟩

/-- A code of the search fits ERR's four bits. -/
theorem priority_toNat (f : BitVec 9) : (priority f).toNat = lowestFlag f 1 9 := by
  have small : lowestFlag f 1 9 < 2 ^ 4 := by rcases lowestFlag_cases f 9 1 with h | h <;> omega
  rw [priority, BitVec.toNat_ofNat, Nat.mod_eq_of_lt small]

/-- Settles O42: a search that finds no flag among codes 1 to 9 has seen every bit of ERRF clear. -/
theorem priorityIsTheLowestFlag : Obligations.PriorityIsTheLowestFlag := by
  refine fun f => ⟨fun zero => zero ▸ priority_zero, fun nonzero => ?_⟩
  rw [priority_toNat]
  rcases lowestFlag_cases f 9 1 with ⟨-, clear⟩ | ⟨hle, hlt, hset, hclear⟩
  · exact absurd (BitVec.eq_of_getLsbD_eq fun i hi => by simpa using clear (i + 1) (by omega) (by omega)) nonzero
  · exact ⟨hle, by omega, hset, hclear⟩

/-! ### No step stops the machine -/

/-- A word presented runs its command or records ILLEGAL_OP (30_encoding.md R71, R73), and both come to `present`,
which always answers. -/
theorem presentCommand_answers (v : Word) (s : State) : ∃ t, presentCommand v s = .next t := by
  cases hv : decode v with
  | instr i => exact ⟨_, (presentCommand_of_instr hv s).trans (exec_eq_present i s)⟩
  | illegalOp opc => exact ⟨_, presentCommand_of_illegalOp hv s⟩

theorem hostWrite_answers (idx : RegIndex) (v : Word) (s : State) : ∃ t, hostWrite idx v s = .next t := by
  cases hr : regAt idx with
  | none => exact ⟨s, by rw [hostWrite, hr]⟩
  | some r =>
    obtain rfl := regIndex_of_regAt hr
    by_cases hctrl : r = .ctrl
    · exact ⟨writeCtrl v s, by rw [hostWrite_regIndex, hctrl, writeReg]⟩
    by_cases hcmd : r = .cmd
    · rw [hostWrite_regIndex, hcmd]
      exact presentCommand_answers v s
    · exact ⟨_, hostWrite_writeField hctrl hcmd v s⟩

theorem hostTurn_answers (s : State) : ∃ t, hostTurn s = .next t := by
  unfold hostTurn
  split
  case h_1 | h_2 | h_4 => exact ⟨_, rfl⟩
  case h_3 idx v rest _ => exact hostWrite_answers idx v _

section
variable {s : State}

/-- A TAKE faults only past offset 25 (log 5). -/
theorem txTake_answers (h : s.cnt.toNat ≤ 25) : ∃ t, txTake s = .next t :=
  h.lt_or_eq.elim (fun below => ⟨_, txTake_below below⟩) (fun last => ⟨_, txTake_last last⟩)

/-- A DELIVER faults only past offset 25 (log 5). -/
theorem rxDeliver_answers (b : Byte) (h : s.cnt.toNat ≤ 25) : ∃ t, rxDeliver b s = .next t :=
  h.lt_or_eq.elim (fun below => ⟨_, rxDeliver_below below⟩) (fun last => ⟨_, rxDeliver_last last⟩)

theorem sinkTurn_answers (h : s.phase = .tx → s.cnt.toNat ≤ 25) : ∃ t, sinkTurn s = .next t := by
  by_cases sending : s.phase = .tx
  · rw [sinkTurn, if_pos sending]
    split
    case h_1 | h_3 => exact ⟨_, rfl⟩
    case h_2 => exact txTake_answers (by exact h sending)
  · exact ⟨s, if_neg sending⟩

theorem sourceTurn_answers (h : s.phase = .rx → s.cnt.toNat ≤ 25) : ∃ t, sourceTurn s = .next t := by
  by_cases receiving : s.phase = .rx
  · rw [sourceTurn, if_pos receiving]
    split
    case h_1 | h_3 => exact ⟨_, rfl⟩
    case h_2 => exact rxDeliver_answers _ (by exact h receiving)
  · exact ⟨s, if_neg receiving⟩

end

/-- Settles O48: only a TAKE or a DELIVER past offset 25 can stop the machine, and legality bounds CNT in TX and RX. -/
theorem legalStatesNeverStop : Obligations.LegalStatesNeverStop := by
  intro s legal
  cases turns : s.turns with
  | nil => exact ⟨s, step_of_turns_nil turns⟩
  | cons a ts =>
    rw [step_of_turns_cons turns]
    cases a with
    | host => exact hostTurn_answers _
    | txSink =>
      refine sinkTurn_answers fun sending => ?_
      obtain ⟨-, hle, -⟩ := legal.sending sending
      exact hle
    | rxSource =>
      refine sourceTurn_answers fun receiving => ?_
      obtain ⟨-, hle, -⟩ := legal.receiving receiving
      exact hle
    | resetInput => exact ⟨_, rfl⟩

end Sys2Proof.Machine

/-!
The reset family (70_reset_and_hazards.md): what the reset input's turn does, whatever the SFC was doing.
-/

namespace Sys2Proof.Machine

/-- The reset input's turn is looked at before PHASE is: it always comes to `resetSfc`. -/
theorem step_reset_input {s : State} {ts : List Agent} (turns : s.turns = .resetInput :: ts) :
    step s = .next { s with turns := ts }.resetSfc := by
  rw [step_of_turns_cons turns, agentTurn]

/-- Settles O44: the step is `resetSfc` once the turn is used up, and `resetSfc` takes from the state before only what
is outside the SFC. -/
theorem hardwareResetRestoresResetState : Obligations.HardwareResetRestoresResetState := by
  intro s ts turns
  rw [step_reset_input turns, State.resetSfc]

end Sys2Proof.Machine
